-- ==== Sys2Proof/Word.lean ====
section
/-! DEFINITION. The word types of the core: 8-bit registers and bytes, 16-bit `PC`, `I`, stack slots and
instruction words (spec 10_state.md R21, R22, R24, R25; 20_memory.md R50). Every value is unsigned and every
assignment to a register is reduced to its width (00_scope.md R10), which is what `BitVec` arithmetic does. -/

namespace Sys2Proof

/-- A byte of memory, a general register, a timer (R21, R28, R50). -/
abbrev Byte := BitVec 8

/-- A 16-bit value: `PC`, `I`, a return address, an instruction word (R22, R24, R25, R70). -/
abbrev Word := BitVec 16

end Sys2Proof
end

