-- ==== Sys2Proof/Config.lean ====
section
/-! DEFINITION. The parameters of the hardware that its source states (spec 00_scope.md R7), each under the spec's
name and with the value this hardware takes, and the one FREE VALUE of the model. The parameters the source does
not give (font bytes, glyph height: R7 "decision") stand in Machine/Font.lean. -/

namespace Sys2Proof

/-- `MEM_SIZE`: bytes of RAM, addresses 0 .. 4095 (R7, R50). -/
@[simp] abbrev Config.memSize : Nat := 4096

/-- `LOAD_ADDR`: where load places a program, and `PC` after reset (R7, R52). -/
@[simp] abbrev Config.loadAddr : Nat := 0x200

/-- `LOAD_MAX`: the longest byte sequence load accepts (R7, R56). -/
@[simp] abbrev Config.loadMax : Nat := Config.memSize - Config.loadAddr

/-- `NREGS`: general registers V0 .. VF (R7, R21). -/
@[simp] abbrev Config.nRegs : Nat := 16

/-- `REG_W`: bits of a general register (R7, R21). -/
@[simp] abbrev Config.regW : Nat := 8

/-- `PC_W`: bits of `PC` (R7, R22). -/
@[simp] abbrev Config.pcW : Nat := 16

/-- `I_W`: bits of `I` (R7, R24). -/
@[simp] abbrev Config.iW : Nat := 16

/-- `STACK_W`: bits of a return-address slot (R7, R25). -/
@[simp] abbrev Config.stackW : Nat := 16

/-- `TIMER_W`: bits of `DT` and of `ST` (R7, R28, R29). -/
@[simp] abbrev Config.timerW : Nat := 8

/-- `STACK_DEPTH`: return-address slots (R7, R25). -/
@[simp] abbrev Config.stackDepth : Nat := 16

/-- `DISP_W`: display width in pixels (R7, R31). -/
@[simp] abbrev Config.dispW : Nat := 64

/-- `DISP_H`: display height in pixels (R7, R31). -/
@[simp] abbrev Config.dispH : Nat := 32

/-- `NKEYS`: key-state flags (R7, R32). -/
@[simp] abbrev Config.nKeys : Nat := 16

/-- `SPRITE_W`: pixels per sprite row, the bits of a sprite byte (R7, R171). -/
@[simp] abbrev Config.spriteW : Nat := 8

/-- THE FREE VALUE `rnd()`: the byte presented on the random input at the `k`-th draw (60_exceptions.md R221: "a
free draw of the step (any of 256 values, under no law)"). It has no body: no proof can see what it is. The state's
`draws` counts the draws, so that every execution of CXNN takes a fresh one (log entry 3). -/
opaque Config.rnd : Nat → Byte

end Sys2Proof
end

