-- ==== Sys2Proof/Syntax.lean ====
section
/-! DEFINITION. The instructions as syntax: one constructor for each row of spec/opcode_table.json, that is for each
row of 30_encoding.md R74. Operands are the fields of R71 that the instruction's format names (R72), already pulled
out of the word: register numbers, an 8-bit immediate `nn`, a 12-bit address `nnn`, a row count `n`. -/

namespace Sys2Proof

/-- A register number: every one of the 16 values of a 4-bit field names a register (R73). -/
abbrev Reg := Fin Config.nRegs

/-- `VF`, register 15: general purpose, and the flag output of six instructions (R23). -/
abbrev VF : Reg := 15

/-- The 34 instructions (R74), in the order of the table. 8XY6 and 8XYE keep their `y` field, which is encoded and
not read (R72, R129, R131). -/
inductive Instr where
  /-- 00E0, CLS (R170) -/
  | cls
  /-- 00EE, RET (R101) -/
  | ret
  /-- 1NNN, JP addr (R102) -/
  | jp (nnn : BitVec 12)
  /-- 2NNN, CALL addr (R103) -/
  | call (nnn : BitVec 12)
  /-- 3XNN, SE Vx, byte (R104) -/
  | seImm (x : Reg) (nn : Byte)
  /-- 4XNN, SNE Vx, byte (R105) -/
  | sneImm (x : Reg) (nn : Byte)
  /-- 5XY0, SE Vx, Vy (R106) -/
  | seReg (x y : Reg)
  /-- 6XNN, LD Vx, byte (R121) -/
  | ldImm (x : Reg) (nn : Byte)
  /-- 7XNN, ADD Vx, byte (R122) -/
  | addImm (x : Reg) (nn : Byte)
  /-- 8XY0, LD Vx, Vy (R123) -/
  | ldReg (x y : Reg)
  /-- 8XY1, OR Vx, Vy (R124) -/
  | orReg (x y : Reg)
  /-- 8XY2, AND Vx, Vy (R125) -/
  | andReg (x y : Reg)
  /-- 8XY3, XOR Vx, Vy (R126) -/
  | xorReg (x y : Reg)
  /-- 8XY4, ADD Vx, Vy (R127) -/
  | addReg (x y : Reg)
  /-- 8XY5, SUB Vx, Vy (R128) -/
  | sub (x y : Reg)
  /-- 8XY6, SHR Vx; `y` is encoded and not read (R129) -/
  | shr (x y : Reg)
  /-- 8XY7, SUBN Vx, Vy (R130) -/
  | subn (x y : Reg)
  /-- 8XYE, SHL Vx; `y` is encoded and not read (R131) -/
  | shl (x y : Reg)
  /-- 9XY0, SNE Vx, Vy (R107) -/
  | sneReg (x y : Reg)
  /-- ANNN, LD I, addr (R151) -/
  | ldI (nnn : BitVec 12)
  /-- BNNN, JP V0, addr (R108) -/
  | jpV0 (nnn : BitVec 12)
  /-- CXNN, RND Vx, byte (R132) -/
  | rnd (x : Reg) (nn : Byte)
  /-- DXYN, DRW Vx, Vy, nibble: `n` is a count, 0 .. 15 (R73, R171) -/
  | drw (x y : Reg) (n : Nat)
  /-- EX9E, SKP Vx (R180) -/
  | skp (x : Reg)
  /-- EXA1, SKNP Vx (R181) -/
  | sknp (x : Reg)
  /-- FX07, LD Vx, DT (R183) -/
  | ldVxDt (x : Reg)
  /-- FX0A, LD Vx, K (R182) -/
  | ldVxK (x : Reg)
  /-- FX15, LD DT, Vx (R184) -/
  | ldDtVx (x : Reg)
  /-- FX18, LD ST, Vx (R185) -/
  | ldStVx (x : Reg)
  /-- FX1E, ADD I, Vx (R152) -/
  | addI (x : Reg)
  /-- FX29, LD F, Vx (R153) -/
  | ldF (x : Reg)
  /-- FX33, LD B, Vx (R154) -/
  | ldB (x : Reg)
  /-- FX55, LD [I], Vx (R155) -/
  | ldMemVx (x : Reg)
  /-- FX65, LD Vx, [I] (R156) -/
  | ldVxMem (x : Reg)
deriving DecidableEq, Repr

end Sys2Proof
end

