-- ==== Sys2Proof/WellFormed.lean ====
section
/-! DEFINITION. Which instruction terms stand for a word. Register numbers, `nn` and `nnn` carry their bounds in
their types; the one operand that is a plain number is the row count of DXYN, which must fit its 4-bit field
(spec 30_encoding.md R73: "`n` is an unsigned count 0 .. 15"). -/

namespace Sys2Proof

/-- The check of an instruction's operands against R73. -/
def Instr.wf : Instr → Bool
  | .drw _ _ n => decide (n < 16)
  | .cls | .ret => true
  | .jp _ | .call _ | .ldI _ | .jpV0 _ => true
  | .seImm _ _ | .sneImm _ _ | .ldImm _ _ | .addImm _ _ | .rnd _ _ => true
  | .seReg _ _ | .sneReg _ _ | .ldReg _ _ | .orReg _ _ | .andReg _ _ | .xorReg _ _ => true
  | .addReg _ _ | .sub _ _ | .shr _ _ | .subn _ _ | .shl _ _ => true
  | .skp _ | .sknp _ | .ldVxDt _ | .ldVxK _ | .ldDtVx _ | .ldStVx _ => true
  | .addI _ | .ldF _ | .ldB _ | .ldMemVx _ | .ldVxMem _ => true

end Sys2Proof
end

