-- ==== Sys2Proof/Decode.lean ====
section
/-! DEFINITION. Decoding and encoding (spec 30_encoding.md). The decode table is R74 row by row; decoding a word is
finding the row it matches and pulling out the fields its format names. The encoder is written from the formats of
R72. Words are given in bytes high byte first (R60, R70). -/

namespace Sys2Proof

/-! ### Fields of a word (R71) -/

/-- `op`, nibble 1, bits 15..12. -/
def opField (w : Word) : BitVec 4 := w.extractLsb' 12 4

/-- `x`, nibble 2, bits 11..8, a register number. -/
def xField (w : Word) : Reg := ⟨(w.extractLsb' 8 4).toNat, (w.extractLsb' 8 4).isLt⟩

/-- `y`, nibble 3, bits 7..4, a register number. -/
def yField (w : Word) : Reg := ⟨(w.extractLsb' 4 4).toNat, (w.extractLsb' 4 4).isLt⟩

/-- `n`, nibble 4, bits 3..0. -/
def nField (w : Word) : BitVec 4 := w.extractLsb' 0 4

/-- `nn`, bits 7..0. -/
def nnField (w : Word) : Byte := w.extractLsb' 0 8

/-- `nnn`, bits 11..0. -/
def nnnField (w : Word) : BitVec 12 := w.extractLsb' 0 12

/-! ### The decode table (R74) -/

/-- One row of R74: the instruction's customary form (R90), its pattern, its mask and match, and the instruction
that a matching word is, with the fields its format uses (R72). -/
structure OpcodeRow where
  form : String
  pattern : String
  mask : Word
  code : Word
  build : Word → Instr

/-- A word matches a row when `(w AND mask) = match` (R74). -/
def OpcodeRow.matchesWord (r : OpcodeRow) (w : Word) : Bool := w &&& r.mask == r.code

/-- Rows 00E0 to 7XNN of R74. -/
def opcodeRowsLow : List OpcodeRow :=
  [ ⟨"CLS", "00E0", 0xFFFF, 0x00E0, fun _ => .cls⟩,
    ⟨"RET", "00EE", 0xFFFF, 0x00EE, fun _ => .ret⟩,
    ⟨"JP addr", "1NNN", 0xF000, 0x1000, fun w => .jp (nnnField w)⟩,
    ⟨"CALL addr", "2NNN", 0xF000, 0x2000, fun w => .call (nnnField w)⟩,
    ⟨"SE Vx, byte", "3XNN", 0xF000, 0x3000, fun w => .seImm (xField w) (nnField w)⟩,
    ⟨"SNE Vx, byte", "4XNN", 0xF000, 0x4000, fun w => .sneImm (xField w) (nnField w)⟩,
    ⟨"SE Vx, Vy", "5XY0", 0xF00F, 0x5000, fun w => .seReg (xField w) (yField w)⟩,
    ⟨"LD Vx, byte", "6XNN", 0xF000, 0x6000, fun w => .ldImm (xField w) (nnField w)⟩,
    ⟨"ADD Vx, byte", "7XNN", 0xF000, 0x7000, fun w => .addImm (xField w) (nnField w)⟩ ]

/-- Rows 8XY0 to 9XY0 of R74. -/
def opcodeRowsReg : List OpcodeRow :=
  [ ⟨"LD Vx, Vy", "8XY0", 0xF00F, 0x8000, fun w => .ldReg (xField w) (yField w)⟩,
    ⟨"OR Vx, Vy", "8XY1", 0xF00F, 0x8001, fun w => .orReg (xField w) (yField w)⟩,
    ⟨"AND Vx, Vy", "8XY2", 0xF00F, 0x8002, fun w => .andReg (xField w) (yField w)⟩,
    ⟨"XOR Vx, Vy", "8XY3", 0xF00F, 0x8003, fun w => .xorReg (xField w) (yField w)⟩,
    ⟨"ADD Vx, Vy", "8XY4", 0xF00F, 0x8004, fun w => .addReg (xField w) (yField w)⟩,
    ⟨"SUB Vx, Vy", "8XY5", 0xF00F, 0x8005, fun w => .sub (xField w) (yField w)⟩,
    ⟨"SHR Vx", "8XY6", 0xF00F, 0x8006, fun w => .shr (xField w) (yField w)⟩,
    ⟨"SUBN Vx, Vy", "8XY7", 0xF00F, 0x8007, fun w => .subn (xField w) (yField w)⟩,
    ⟨"SHL Vx", "8XYE", 0xF00F, 0x800E, fun w => .shl (xField w) (yField w)⟩,
    ⟨"SNE Vx, Vy", "9XY0", 0xF00F, 0x9000, fun w => .sneReg (xField w) (yField w)⟩ ]

/-- Rows ANNN to EXA1 of R74. -/
def opcodeRowsMid : List OpcodeRow :=
  [ ⟨"LD I, addr", "ANNN", 0xF000, 0xA000, fun w => .ldI (nnnField w)⟩,
    ⟨"JP V0, addr", "BNNN", 0xF000, 0xB000, fun w => .jpV0 (nnnField w)⟩,
    ⟨"RND Vx, byte", "CXNN", 0xF000, 0xC000, fun w => .rnd (xField w) (nnField w)⟩,
    ⟨"DRW Vx, Vy, nibble", "DXYN", 0xF000, 0xD000, fun w => .drw (xField w) (yField w) (nField w).toNat⟩,
    ⟨"SKP Vx", "EX9E", 0xF0FF, 0xE09E, fun w => .skp (xField w)⟩,
    ⟨"SKNP Vx", "EXA1", 0xF0FF, 0xE0A1, fun w => .sknp (xField w)⟩ ]

/-- Rows FX07 to FX65 of R74. -/
def opcodeRowsF : List OpcodeRow :=
  [ ⟨"LD Vx, DT", "FX07", 0xF0FF, 0xF007, fun w => .ldVxDt (xField w)⟩,
    ⟨"LD Vx, K", "FX0A", 0xF0FF, 0xF00A, fun w => .ldVxK (xField w)⟩,
    ⟨"LD DT, Vx", "FX15", 0xF0FF, 0xF015, fun w => .ldDtVx (xField w)⟩,
    ⟨"LD ST, Vx", "FX18", 0xF0FF, 0xF018, fun w => .ldStVx (xField w)⟩,
    ⟨"ADD I, Vx", "FX1E", 0xF0FF, 0xF01E, fun w => .addI (xField w)⟩,
    ⟨"LD F, Vx", "FX29", 0xF0FF, 0xF029, fun w => .ldF (xField w)⟩,
    ⟨"LD B, Vx", "FX33", 0xF0FF, 0xF033, fun w => .ldB (xField w)⟩,
    ⟨"LD [I], Vx", "FX55", 0xF0FF, 0xF055, fun w => .ldMemVx (xField w)⟩,
    ⟨"LD Vx, [I]", "FX65", 0xF0FF, 0xF065, fun w => .ldVxMem (xField w)⟩ ]

/-- The 34 rows of R74. -/
def opcodeTable : List OpcodeRow := opcodeRowsLow ++ opcodeRowsReg ++ opcodeRowsMid ++ opcodeRowsF

/-- Decode of a word: the instruction of the row it matches, or none, which is `IllegalInstruction` (R74, R76).
The rows are pairwise disjoint (R75), so the order of the search does not matter. -/
def decode (w : Word) : Option Instr :=
  (opcodeTable.find? fun r => r.matchesWord w).map fun r => r.build w

/-- The customary form of the instruction a word decodes to (R90, R91), none for an illegal word. -/
def mnemonicForm (w : Word) : Option String :=
  (opcodeTable.find? fun r => r.matchesWord w).map fun r => r.form

/-- Why a byte sequence is not an instruction. -/
inductive DecodeReject where
  /-- The word matches no row of R74: the core raises `IllegalInstruction` (R76). -/
  | illegalWord (w : Word)
  /-- Fewer than two bytes: there is no whole word (R70). -/
  | truncated
deriving DecidableEq, Repr

/-- Decode of bytes, high byte first (R60): the instruction at their head and the bytes after it. -/
def decodeBytes : List Byte → Except DecodeReject (Instr × List Byte)
  | hi :: lo :: rest =>
    match decode (hi ++ lo) with
    | some i => .ok (i, rest)
    | none => .error (.illegalWord (hi ++ lo))
  | [_] => .error .truncated
  | [] => .error .truncated

/-- The two bytes of a word as memory holds them, high byte at the lower address (R60). -/
def wordBytes (w : Word) : List Byte := [w.extractLsb' 8 8, w.extractLsb' 0 8]

/-- The word that spec/opcode_table.json's numbering gives for `nbits` bits `w`, every bit above them 0. -/
def tableWord (nbits w : Nat) : Word := BitVec.ofNat 16 (w % 2 ^ nbits)

/-- What the decoder reads from the instruction whose bits are `w` in the table's numbering: the word laid out as
memory holds it and given to `decodeBytes`. -/
def decodeTableWord (nbits w : Nat) : Option Instr :=
  match decodeBytes (wordBytes (tableWord nbits w)) with
  | .ok (i, _) => some i
  | .error _ => none

/-! ### The encoder, from the formats of R72 -/

/-- A register number as its 4-bit field. -/
def regBits (x : Reg) : BitVec 4 := BitVec.ofNat 4 x.val

/-- Format `A`: `oooo aaaa aaaa aaaa`. -/
def formatA (op : BitVec 4) (nnn : BitVec 12) : Word := op ++ nnn

/-- Format `XK`: `oooo xxxx kkkk kkkk`. -/
def formatXK (op : BitVec 4) (x : Reg) (nn : Byte) : Word := op ++ regBits x ++ nn

/-- Formats `XY` and `XYN`: `oooo xxxx yyyy ssss`, the last nibble a sub-opcode or the row count. -/
def formatXY (op : BitVec 4) (x y : Reg) (s : BitVec 4) : Word := op ++ regBits x ++ regBits y ++ s

/-- Format `XS`: `oooo xxxx ssss ssss`. -/
def formatXS (op : BitVec 4) (x : Reg) (s : Byte) : Word := op ++ regBits x ++ s

/-- The word of an instruction (R72, R74). -/
def encode : Instr → Word
  | .cls => 0x00E0
  | .ret => 0x00EE
  | .jp nnn => formatA 0x1 nnn
  | .call nnn => formatA 0x2 nnn
  | .seImm x nn => formatXK 0x3 x nn
  | .sneImm x nn => formatXK 0x4 x nn
  | .seReg x y => formatXY 0x5 x y 0x0
  | .ldImm x nn => formatXK 0x6 x nn
  | .addImm x nn => formatXK 0x7 x nn
  | .ldReg x y => formatXY 0x8 x y 0x0
  | .orReg x y => formatXY 0x8 x y 0x1
  | .andReg x y => formatXY 0x8 x y 0x2
  | .xorReg x y => formatXY 0x8 x y 0x3
  | .addReg x y => formatXY 0x8 x y 0x4
  | .sub x y => formatXY 0x8 x y 0x5
  | .shr x y => formatXY 0x8 x y 0x6
  | .subn x y => formatXY 0x8 x y 0x7
  | .shl x y => formatXY 0x8 x y 0xE
  | .sneReg x y => formatXY 0x9 x y 0x0
  | .ldI nnn => formatA 0xA nnn
  | .jpV0 nnn => formatA 0xB nnn
  | .rnd x nn => formatXK 0xC x nn
  | .drw x y n => formatXY 0xD x y (BitVec.ofNat 4 n)
  | .skp x => formatXS 0xE x 0x9E
  | .sknp x => formatXS 0xE x 0xA1
  | .ldVxDt x => formatXS 0xF x 0x07
  | .ldVxK x => formatXS 0xF x 0x0A
  | .ldDtVx x => formatXS 0xF x 0x15
  | .ldStVx x => formatXS 0xF x 0x18
  | .addI x => formatXS 0xF x 0x1E
  | .ldF x => formatXS 0xF x 0x29
  | .ldB x => formatXS 0xF x 0x33
  | .ldMemVx x => formatXS 0xF x 0x55
  | .ldVxMem x => formatXS 0xF x 0x65

/-- The bytes of an instruction as a program holds them (R60). -/
def encodeBytes (i : Instr) : List Byte := wordBytes (encode i)

end Sys2Proof
end

