-- ==== Sys2Proof/Machine/Font.lean ====
section
/-! DEFINITION. The parameters of spec 00_scope.md R7 that the source does not give: the font bytes, their base and
size, and the glyph height. The values are the spec's (R7, 20_memory.md R53), which says of them "[from general
knowledge, not in source]" (92_eei_decisions.md D2, D3). UNVERIFIED (log entry 7): a claim that depends on them
rests on these definitions. -/

namespace Sys2Proof

/-- `FONT_BASE`: first byte of the font table (R7, R52). -/
@[simp] abbrev Config.fontBase : Nat := 0

/-- `GLYPH_H`: bytes per font glyph (R7, decision D3). -/
@[simp] abbrev Config.glyphH : Nat := 5

/-- `FONT_SIZE` = 16 × `GLYPH_H` (R7, decision D2). -/
@[simp] abbrev Config.fontSize : Nat := 16 * Config.glyphH

/-- Glyphs 0 to 3 of R53, one byte a row, top row first. -/
def Config.glyphs0to3 : List Byte :=
  [0xF0, 0x90, 0x90, 0x90, 0xF0] ++ [0x20, 0x60, 0x20, 0x20, 0x70] ++
  [0xF0, 0x10, 0xF0, 0x80, 0xF0] ++ [0xF0, 0x10, 0xF0, 0x10, 0xF0]

/-- Glyphs 4 to 7 of R53. -/
def Config.glyphs4to7 : List Byte :=
  [0x90, 0x90, 0xF0, 0x10, 0x10] ++ [0xF0, 0x80, 0xF0, 0x10, 0xF0] ++
  [0xF0, 0x80, 0xF0, 0x90, 0xF0] ++ [0xF0, 0x10, 0x20, 0x40, 0x40]

/-- Glyphs 8 to B of R53. -/
def Config.glyphs8toB : List Byte :=
  [0xF0, 0x90, 0xF0, 0x90, 0xF0] ++ [0xF0, 0x90, 0xF0, 0x10, 0xF0] ++
  [0xF0, 0x90, 0xF0, 0x90, 0x90] ++ [0xE0, 0x90, 0xE0, 0x90, 0xE0]

/-- Glyphs C to F of R53. -/
def Config.glyphsCtoF : List Byte :=
  [0xF0, 0x80, 0x80, 0x80, 0xF0] ++ [0xE0, 0x90, 0x90, 0x90, 0xE0] ++
  [0xF0, 0x80, 0xF0, 0x80, 0xF0] ++ [0xF0, 0x80, 0xF0, 0x80, 0x80]

/-- `FONT`: the 80 bytes of R53. -/
def Config.font : List Byte :=
  Config.glyphs0to3 ++ Config.glyphs4to7 ++ Config.glyphs8toB ++ Config.glyphsCtoF

end Sys2Proof
end

