-- ==== Sys2Proof/Machine/Memory.lean ====
section
/-! DEFINITION. The RAM `MEM[0..4095]` (spec 10_state.md R30, 20_memory.md R50 to R54) as plain data: the list of
the cells that differ from what memory holds after reset (70_reset_and_hazards.md R230), in one canonical form. -/

namespace Sys2Proof.Machine

/-- Cells whose addresses strictly rise, none equal to what an unlisted address reads as. -/
abbrev Memory := List Host.Cell

/-- What an unlisted address reads as: the reset content, `FONT` from `FONT_BASE` on and zero elsewhere (R52, R230).
-/
def Memory.unlisted (a : Nat) : Byte :=
  if Config.fontBase ≤ a then Config.font.getD (a - Config.fontBase) 0 else 0

/-- The byte at address `a` (R50). Whether `a` exists is checked by every access before it reads (Operands,
`State.fetch`). -/
def Memory.read (m : Memory) (a : Nat) : Byte :=
  match m with
  | [] => Memory.unlisted a
  | (k, b) :: rest => if k = a then b else Memory.read rest a

/-- The byte at `a` becomes `b` (R12, R54: no address is protected). The canonical form is kept: writing what an
unlisted address reads as takes the cell out of the list. -/
def Memory.write (m : Memory) (a : Nat) (b : Byte) : Memory :=
  match m with
  | [] => if b = Memory.unlisted a then [] else [(a, b)]
  | (k, c) :: rest =>
    if a < k then (if b = Memory.unlisted a then (k, c) :: rest else (a, b) :: (k, c) :: rest)
    else if a = k then (if b = Memory.unlisted a then rest else (a, b) :: rest)
    else (k, c) :: Memory.write rest a b

/-- The bytes `bs` at `a`, `a + 1`, …, in that order (R55, R59). -/
def Memory.writeBytes (m : Memory) (a : Nat) (bs : List Byte) : Memory :=
  match bs with
  | [] => m
  | b :: rest => Memory.writeBytes (Memory.write m a b) (a + 1) rest

/-- Canonical form from address `lo` on: addresses rise, exist, and no cell is what an unlisted address reads as. -/
def Memory.wfFrom (lo : Nat) (m : Memory) : Bool :=
  match m with
  | [] => true
  | (k, b) :: rest =>
    decide (lo ≤ k) && decide (k < Config.memSize) && (b != Memory.unlisted k) && Memory.wfFrom (k + 1) rest

/-- The canonical form of a memory. -/
def Memory.wf (m : Memory) : Bool := Memory.wfFrom 0 m

end Sys2Proof.Machine
end

