-- ==== Sys2Proof/Machine/Screen.lean ====
section
/-! DEFINITION. The display buffer `FB[y][x]` (spec 10_state.md R31) and the sprite drawing of DXYN (43_display.md
R171), as operations on the buffer alone. -/

namespace Sys2Proof.Machine

/-- 32 rows of 64 cells, 1 = on (R31). -/
abbrev Screen := Vector (Vector Bool Config.dispW) Config.dispH

/-- Every cell off (R170, R230). -/
def Screen.blank : Screen := Vector.replicate Config.dispH (Vector.replicate Config.dispW false)

/-- `FB[y][x]`. -/
def Screen.cell (f : Screen) (px : Fin Config.dispW) (py : Fin Config.dispH) : Bool := f[py.val][px.val]

/-- `FB[y][x] <- b`. -/
def Screen.setCell (f : Screen) (px : Fin Config.dispW) (py : Fin Config.dispH) (b : Bool) : Screen :=
  f.set py.val (f[py.val].set px.val b)

/-- Columns wrap modulo the width (R171). -/
def wrapX (k : Nat) : Fin Config.dispW := ⟨k % Config.dispW, Nat.mod_lt k (by decide)⟩

/-- Rows wrap modulo the height (R171). -/
def wrapY (k : Nat) : Fin Config.dispH := ⟨k % Config.dispH, Nat.mod_lt k (by decide)⟩

/-- Bit of a sprite byte for column `c`: bit 7 is column 0 (R171, decision D4). -/
def spriteBit (b : Byte) (c : Nat) : Bool := b.getLsbD (Config.spriteW - 1 - c)

/-- The inner body of R171 for row `r`, column `c` of a sprite whose row byte is `b`: a set bit flips its cell and
collides if the cell was on; a clear bit leaves it alone. The pair is (display, collide). -/
def drawPixel (cx cy : Nat) (b : Byte) (r : Nat) (p : Screen × Bool) (c : Nat) : Screen × Bool :=
  if spriteBit b c then
    (p.1.setCell (wrapX (cx + c)) (wrapY (cy + r)) (!p.1.cell (wrapX (cx + c)) (wrapY (cy + r))),
      p.2 || p.1.cell (wrapX (cx + c)) (wrapY (cy + r)))
  else p

/-- The columns 0 .. 7 of sprite row `r` (R171). -/
def drawRow (cx cy : Nat) (b : Byte) (r : Nat) (p : Screen × Bool) : Screen × Bool :=
  (List.range Config.spriteW).foldl (drawPixel cx cy b r) p

/-- The rows 0 .. n-1 of the sprite at `base` in memory (R171). -/
def drawSprite (m : Memory) (base cx cy n : Nat) (p : Screen × Bool) : Screen × Bool :=
  (List.range n).foldl (fun p r => drawRow cx cy (m.read (base + r)) r p) p

end Sys2Proof.Machine
end

