-- ==== Sys2Proof/Machine/State.lean ====
section
/-! DEFINITION. The state of the core: the tuple of spec 10_state.md R20, every component under the spec's name, and
one field of the model's own, `draws`. The fault taxonomy of 60_exceptions.md R200 is the type of what the latch
`FAULT` holds. Reset values are those of 70_reset_and_hazards.md R230. -/

namespace Sys2Proof.Machine

/-- The execution faults of R200, with the info each records beside `pc0`. A fault is TAKEN: the tick answers a next
state in which it is latched (R79, R203; log entry 2), so `step` never answers `.fault`. Taking the latch of R203
and R204 as state is exact to those rules; it is unsafe only where they, the spec's decisions D10 and D11, differ
from the hardware. -/
inductive Fault where
  /-- 0x01, raised by the fetch of a tick when `PC + 1 >= MEM_SIZE` (R61). Latched, never ends a run: safe. -/
  | fetchOutOfBounds
  /-- 0x02, raised by a tick whose word `w` matches no row (R76). Latched, never ends a run: safe. -/
  | illegalInstruction (w : Word)
  /-- 0x03, raised by 2NNN when `SP = 16` (R103). Latched, never ends a run: safe. -/
  | stackOverflow
  /-- 0x04, raised by 00EE when `SP = 0` (R101). Latched, never ends a run: safe. -/
  | stackUnderflow
  /-- 0x05, raised by FX33, FX55, FX65 and DXYN through `I`; `addr` is the first address of the access at or above
  `MEM_SIZE` (R150, R171). Latched, never ends a run: safe. -/
  | memOutOfBounds (addr : Nat)
  /-- 0x06, raised by EX9E and EXA1 when `V[x] >= 16` (R180, R181). Latched, never ends a run: safe. -/
  | keyIndexOutOfRange (vx : Byte)
deriving DecidableEq, Repr

/-- What `FAULT` holds: the error with its info, and the address of the instruction (R34, R200). -/
structure FaultRecord where
  fault : Fault
  pc0 : Word
deriving DecidableEq, Repr

/-- What the model gives no meaning to. -/
inductive Refusal where
  /-- An instruction with no meaning yet, refused in its arm of `exec`: none is. Safe. -/
  | notModelled (mnemonic : String)
  /-- A run of host operations that loads after execution has started: the source calls it undefined, the spec says
  to refuse it (20_memory.md R57; 93_implementation_defined.md). Raised by `runOps` alone, never by `step`. Safe. -/
  | loadAfterStart
deriving DecidableEq, Repr

/-- The state block (R20). -/
structure State where
  /-- `V[0..15]` (R21) -/
  v : Vector (BitVec Config.regW) Config.nRegs
  /-- `PC` (R22) -/
  pc : BitVec Config.pcW
  /-- `I` (R24) -/
  i : BitVec Config.iW
  /-- `STK[0..15]` (R25) -/
  stk : Vector (BitVec Config.stackW) Config.stackDepth
  /-- `SP`, 0 .. 16 (R26) -/
  sp : Fin (Config.stackDepth + 1)
  /-- `DT` (R28) -/
  dt : BitVec Config.timerW
  /-- `ST` (R29) -/
  st : BitVec Config.timerW
  /-- `MEM[0..4095]` (R30) -/
  mem : Memory
  /-- `FB[0..31][0..63]` (R31) -/
  fb : Screen
  /-- `KEY[0..15]`, 1 = pressed (R32) -/
  key : Vector Bool Config.nKeys
  /-- `FAULT` (R34) -/
  fault : Option FaultRecord
  /-- `STARTED` (R35) -/
  started : Bool
  /-- The model's own: how many random bytes CXNN has taken (R221, log entry 3). -/
  draws : Nat
deriving DecidableEq, Repr

/-- The state after construct or reset (R230). `draws = 0` is a DESIGN CHOICE (log entry 3) on which nothing may
rest. -/
def State.reset : State where
  v := Vector.replicate Config.nRegs 0
  pc := BitVec.ofNat 16 Config.loadAddr
  i := 0
  stk := Vector.replicate Config.stackDepth 0
  sp := 0
  dt := 0
  st := 0
  mem := []
  fb := Screen.blank
  key := Vector.replicate Config.nKeys false
  fault := none
  started := false
  draws := 0

end Sys2Proof.Machine
end

