-- ==== Sys2Proof/Machine/Ops.lean ====
section
/-! DEFINITION. The shared operations: register access, the stack, fetch, and taking a fault. A meaning is run on
the state AFTER the fetch, in which `PC` is the instruction's address plus 2 (spec 30_encoding.md R80). -/

namespace Sys2Proof.Machine

/-- What a meaning answers. -/
abbrev Result := Host.Outcome State Fault Refusal

/-! ### Registers (R21) -/

/-- `V[x]`. -/
def State.getV (s : State) (x : Reg) : Byte := s.v[x.val]

/-- `V[x] <- b`. -/
def State.setV (s : State) (x : Reg) (b : Byte) : State := { s with v := s.v.set x.val b }

/-- `PC <- a`. -/
def State.setPc (s : State) (a : Word) : State := { s with pc := a }

/-- `I <- a`. -/
def State.setI (s : State) (a : Word) : State := { s with i := a }

/-- `pc0`, the address of the instruction that is running: the fetch has advanced `PC` by 2 (R79, R80; log entry
20). -/
def State.pc0 (s : State) : Word := s.pc - 2

/-! ### Taking a fault (R79, R203, R209) -/

/-- TAKING A FAULT: `FAULT <- (E, info, pc0)`, `STARTED <- 1`, `PC` holds `pc0`, and nothing else changes (R203).
There is no handler, vector or return (R209, R210); what leaves the faulted state is reset alone (HostOps). -/
def State.takeFault (s : State) (e : Fault) (pc0 : Word) : State :=
  { s with pc := pc0, started := true, fault := some ⟨e, pc0⟩ }

/-- `raise E(info)` inside an instruction: every instruction checks before it writes (R13), so the state it raises
from is the fetched one, and undoing the fetch's advance restores the state before the tick (R203). -/
def raise (e : Fault) (s : State) : Result := .next (s.takeFault e s.pc0)

/-- The numeric code of an execution fault (R200, decision D12). -/
def Fault.code : Fault → Nat
  | .fetchOutOfBounds => 0x01
  | .illegalInstruction _ => 0x02
  | .stackOverflow => 0x03
  | .stackUnderflow => 0x04
  | .memOutOfBounds _ => 0x05
  | .keyIndexOutOfRange _ => 0x06

/-! ### Stack (R25 to R27) -/

/-- `Push(v)`: writes then increments; none when `SP = 16`. -/
def State.push (s : State) (a : Word) : Option State :=
  if h : s.sp.val < Config.stackDepth then
    some { s with stk := s.stk.set s.sp.val a h, sp := ⟨s.sp.val + 1, Nat.succ_lt_succ h⟩ }
  else none

/-- `Pop()`: decrements then reads, and the slot keeps its value; none when `SP = 0`. -/
def State.pop (s : State) : Option (Word × State) :=
  if h : 0 < s.sp.val then
    some (s.stk[s.sp.val - 1]'(by have := s.sp.isLt; simp only [Config.stackDepth] at this ⊢; omega),
      { s with sp := ⟨s.sp.val - 1, by have := s.sp.isLt; omega⟩ })
  else none

/-! ### Fetch (R60, R61, R80) -/

/-- `Fetch(PC)`: the big-endian word at `PC`, none when `PC + 1 >= MEM_SIZE`; an odd `PC` is fetched like an even
one (R62). -/
def State.fetch (s : State) : Option Word :=
  if s.pc.toNat + 1 < Config.memSize then some (s.mem.read s.pc.toNat ++ s.mem.read (s.pc.toNat + 1)) else none

/-- The state an instruction runs in: `STARTED <- 1` and `PC <- trunc_16(pc0 + 2)` (R79, R80). -/
def State.afterFetch (s : State) : State := { s with pc := s.pc + 2, started := true }

/-- The next instruction is not executed: `PC <- trunc_16(PC + 2)` (R100). -/
def State.skipNext (s : State) : State := s.setPc (s.pc + 2)

/-- A conditional skip (R100). -/
def State.skipIf (s : State) (c : Bool) : State := if c then s.skipNext else s

/-- A fetched word made to stand where the next tick fetches: the latch is cleared, `PC` is left alone if a word
can be fetched there and is the load address otherwise, and the word's bytes are stored (log entry 18; used by
`State.withFetchWord`, an aid of the host's checks, and by no instruction). -/
def State.placeWord (s : State) (w : Word) : State :=
  let pc := if s.pc.toNat + 1 < Config.memSize then s.pc else BitVec.ofNat 16 Config.loadAddr
  { s with pc := pc, fault := none, mem := s.mem.writeBytes pc.toNat (wordBytes w) }

end Sys2Proof.Machine
end

