-- ==== Sys2Proof/Machine/Operands.lean ====
section
/-! DEFINITION. The operand forms of the instructions: 12-bit addresses, the address `V0 + nnn`, memory through `I`,
key indices, decimal digits (spec 30_encoding.md R73; 42_index_memory.md R150; 44_keys_timers.md R180, R182). -/

namespace Sys2Proof.Machine

/-- `zext_16(nnn)` (R73). -/
def addr16 (nnn : BitVec 12) : Word := nnn.setWidth 16

/-- BNNN's target `trunc_16(zext_16(V[0]) + zext_16(nnn))`, not reduced to 12 bits (R108). -/
def State.offsetTarget (s : State) (nnn : BitVec 12) : Word := (s.getV 0).setWidth 16 + addr16 nnn

/-! ### Memory through `I` (R68, R150) -/

/-- The address `I + k`, a natural number, not reduced (R68, R150). -/
def State.ea (s : State) (k : Nat) : Nat := s.i.toNat + k

/-- Do all of `I .. I + kmax` exist? (R150) -/
def State.indexOk (s : State) (kmax : Nat) : Bool := decide (s.ea kmax < Config.memSize)

/-- The check of R150, before any access: if `I + kmax >= MEM_SIZE` the instruction raises
`MemOutOfBounds(max(I, MEM_SIZE))` and does nothing; otherwise it goes to `t`. -/
def State.indexed (s : State) (kmax : Nat) (t : State) : Result :=
  if s.indexOk kmax then .next t else raise (.memOutOfBounds (max s.i.toNat Config.memSize)) s

/-- Bytes stored at `I, I + 1, …` (R157). -/
def State.storeAtI (s : State) (bs : List Byte) : State := { s with mem := s.mem.writeBytes (s.ea 0) bs }

/-- Decimal digits of a byte: hundreds, tens, ones (R154). -/
def decimalDigits (b : Byte) : List Byte :=
  [BitVec.ofNat 8 (b.toNat / 100), BitVec.ofNat 8 (b.toNat / 10 % 10), BitVec.ofNat 8 (b.toNat % 10)]

/-- `V[0], …, V[x]` in that order (R155). -/
def State.regsUpTo (s : State) (x : Reg) : List Byte := s.v.toList.take (x.val + 1)

/-- `for k in 0 .. n-1: V[k] <- MEM[base + k]` (R156). -/
def loadRegs (m : Memory) (base : Nat) (n : Nat) (v : Vector Byte Config.nRegs) : Vector Byte Config.nRegs :=
  match n with
  | 0 => v
  | k + 1 => (loadRegs m base k v).setIfInBounds k (m.read (base + k))

/-- The address of the glyph that FX29 selects: `vx * GLYPH_H` with the whole of `vx`, from `FONT_BASE` on,
which is 0 (R153). -/
def glyphAddr (b : Byte) : Word := BitVec.ofNat 16 (Config.fontBase + b.toNat * Config.glyphH)

/-! ### Keys (R32, R180, R182) -/

/-- A key index. -/
abbrev Key := Fin Config.nKeys

/-- The key a register's value names, none when it is 16 or more (R180). -/
def keyOf (b : Byte) : Option Key := if h : b.toNat < Config.nKeys then some ⟨b.toNat, h⟩ else none

/-- `KEY[k]`. -/
def State.keyDown (s : State) (k : Key) : Bool := s.key[k.val]

/-- `min { k | KEY[k] = 1 }`, none when no key is pressed (R182). -/
def State.lowestKey (s : State) : Option Nat := s.key.toList.findIdx? id

end Sys2Proof.Machine
end

