-- ==== Sys2Proof/Machine/Flags.lean ====
section
/-! DEFINITION. The flag computations and the one way a flag is written: last, after the result (spec 41_alu.md
R120, decision D5). `V[F]` is the only flag (10_state.md R23). -/

namespace Sys2Proof.Machine

/-- A flag as the byte `V[F]` receives: 1 or 0. -/
def flagByte (c : Bool) : Byte := if c then 1 else 0

/-- Carry out of bit 7 of `a + b` (R127). -/
def carryOut (a b : Byte) : Bool := decide (a.toNat + b.toNat > 255)

/-- NOT borrow of `a - b`: equal operands do not borrow (R128, R130, decision D6). -/
def notBorrow (a b : Byte) : Bool := decide (a.toNat ≥ b.toNat)

/-- The bit a right shift by one shifts out (R129). -/
def lowBit (a : Byte) : Bool := a.getLsbD 0

/-- The bit a left shift by one shifts out (R131). -/
def highBit (a : Byte) : Bool := a.getLsbD 7

/-- `V[F] <- c`. -/
def State.setFlag (s : State) (c : Bool) : State := s.setV VF (flagByte c)

/-- `V[x] <- r` and then `V[F] <- c`: with `x = F` the flag stays (R120). -/
def State.setResultFlag (s : State) (x : Reg) (r : Byte) (c : Bool) : State := (s.setV x r).setFlag c

end Sys2Proof.Machine
end

