-- ==== Sys2Proof/Machine/Alu.lean ====
section
/-! DEFINITION. Register and ALU instructions: 6XNN, 7XNN, 8XY0 to 8XY7, 8XYE, CXNN (spec 41_alu.md). Operands are
read from the state at the start (R120). -/

namespace Sys2Proof.Machine

/-- 6XNN, LD Vx, byte (R121). -/
def execLdImm (x : Reg) (nn : Byte) (s : State) : Result := .next (s.setV x nn)

/-- 7XNN, ADD Vx, byte: no flag (R122). -/
def execAddImm (x : Reg) (nn : Byte) (s : State) : Result := .next (s.setV x (s.getV x + nn))

/-- 8XY0, LD Vx, Vy (R123). -/
def execLdReg (x y : Reg) (s : State) : Result := .next (s.setV x (s.getV y))

/-- 8XY1, OR Vx, Vy: `V[F]` is not reset (R124). -/
def execOrReg (x y : Reg) (s : State) : Result := .next (s.setV x (s.getV x ||| s.getV y))

/-- 8XY2, AND Vx, Vy: `V[F]` is not reset (R125). -/
def execAndReg (x y : Reg) (s : State) : Result := .next (s.setV x (s.getV x &&& s.getV y))

/-- 8XY3, XOR Vx, Vy: `V[F]` is not reset (R126). -/
def execXorReg (x y : Reg) (s : State) : Result := .next (s.setV x (s.getV x ^^^ s.getV y))

/-- 8XY4, ADD Vx, Vy with carry in `V[F]` (R127). -/
def execAddReg (x y : Reg) (s : State) : Result :=
  .next (s.setResultFlag x (s.getV x + s.getV y) (carryOut (s.getV x) (s.getV y)))

/-- 8XY5, SUB Vx, Vy with not-borrow in `V[F]` (R128). -/
def execSub (x y : Reg) (s : State) : Result :=
  .next (s.setResultFlag x (s.getV x - s.getV y) (notBorrow (s.getV x) (s.getV y)))

/-- 8XY6, SHR Vx: `y` is not read (R129). -/
def execShr (x _y : Reg) (s : State) : Result :=
  .next (s.setResultFlag x (s.getV x >>> 1) (lowBit (s.getV x)))

/-- 8XY7, SUBN Vx, Vy: `Vy - Vx` with not-borrow in `V[F]` (R130). -/
def execSubn (x y : Reg) (s : State) : Result :=
  .next (s.setResultFlag x (s.getV y - s.getV x) (notBorrow (s.getV y) (s.getV x)))

/-- 8XYE, SHL Vx: `y` is not read (R131). -/
def execShl (x _y : Reg) (s : State) : Result :=
  .next (s.setResultFlag x (s.getV x <<< 1) (highBit (s.getV x)))

/-- CXNN, RND Vx, byte: one draw per execution, a free value (R132, R221, log entry 3). -/
def execRnd (x : Reg) (nn : Byte) (s : State) : Result :=
  .next ({ s with draws := s.draws + 1 }.setV x (Config.rnd s.draws &&& nn))

end Sys2Proof.Machine
end

