-- ==== Sys2Proof/Machine/ControlFlow.lean ====
section
/-! DEFINITION. Control flow: 00EE, 1NNN, 2NNN, 3XNN, 4XNN, 5XY0, 9XY0, BNNN (spec 40_control_flow.md). -/

namespace Sys2Proof.Machine

/-- 00EE, RET (R101). -/
def execRet (s : State) : Result :=
  match s.pop with
  | none => raise .stackUnderflow s
  | some (a, t) => .next (t.setPc a)

/-- 1NNN, JP addr (R102). -/
def execJp (nnn : BitVec 12) (s : State) : Result := .next (s.setPc (addr16 nnn))

/-- 2NNN, CALL addr: the post-fetch `PC` is pushed (R103). -/
def execCall (nnn : BitVec 12) (s : State) : Result :=
  match s.push s.pc with
  | none => raise .stackOverflow s
  | some t => .next (t.setPc (addr16 nnn))

/-- 3XNN, SE Vx, byte (R104). -/
def execSeImm (x : Reg) (nn : Byte) (s : State) : Result := .next (s.skipIf (s.getV x == nn))

/-- 4XNN, SNE Vx, byte (R105). -/
def execSneImm (x : Reg) (nn : Byte) (s : State) : Result := .next (s.skipIf (s.getV x != nn))

/-- 5XY0, SE Vx, Vy (R106). -/
def execSeReg (x y : Reg) (s : State) : Result := .next (s.skipIf (s.getV x == s.getV y))

/-- 9XY0, SNE Vx, Vy (R107). -/
def execSneReg (x y : Reg) (s : State) : Result := .next (s.skipIf (s.getV x != s.getV y))

/-- BNNN, JP V0, addr (R108). -/
def execJpV0 (nnn : BitVec 12) (s : State) : Result := .next (s.setPc (s.offsetTarget nnn))

end Sys2Proof.Machine
end

