-- ==== Sys2Proof/Machine/DisplayInstr.lean ====
section
/-! DEFINITION. Display instructions: 00E0, DXYN (spec 43_display.md). -/

namespace Sys2Proof.Machine

/-- 00E0, CLS (R170). -/
def execCls (s : State) : Result := .next { s with fb := Screen.blank }

/-- What a DXYN that does not raise leaves: the sprite drawn, then the collision flag written (R171). -/
def State.drawn (s : State) (x y : Reg) (n : Nat) : State :=
  let p := drawSprite s.mem (s.ea 0) (s.getV x).toNat (s.getV y).toNat n (s.fb, false)
  { s with fb := p.1 }.setFlag p.2

/-- DXYN, DRW Vx, Vy, nibble: with `n = 0` nothing is read or drawn and `V[F] <- 0` (R171, decision D16). -/
def execDrw (x y : Reg) (n : Nat) (s : State) : Result :=
  match n with
  | 0 => .next (s.drawn x y 0)
  | k + 1 => s.indexed k (s.drawn x y (k + 1))

end Sys2Proof.Machine
end

