-- ==== Sys2Proof/Machine/IndexMemory.lean ====
section
/-! DEFINITION. Index register and memory instructions: ANNN, FX1E, FX29, FX33, FX55, FX65 (spec
42_index_memory.md). -/

namespace Sys2Proof.Machine

/-- ANNN, LD I, addr (R151). -/
def execLdI (nnn : BitVec 12) (s : State) : Result := .next (s.setI (addr16 nnn))

/-- FX1E, ADD I, Vx: 16-bit wraparound, no flag (R152). -/
def execAddI (x : Reg) (s : State) : Result := .next (s.setI (s.i + (s.getV x).setWidth 16))

/-- FX29, LD F, Vx (R153). -/
def execLdF (x : Reg) (s : State) : Result := .next (s.setI (glyphAddr (s.getV x)))

/-- FX33, LD B, Vx: hundreds, tens, ones at `I`, `I + 1`, `I + 2` (R154). -/
def execLdB (x : Reg) (s : State) : Result := s.indexed 2 (s.storeAtI (decimalDigits (s.getV x)))

/-- FX55, LD [I], Vx: `V[0] .. V[x]` at `I .. I + x`; `I` is unchanged (R155). -/
def execLdMemVx (x : Reg) (s : State) : Result := s.indexed x.val (s.storeAtI (s.regsUpTo x))

/-- FX65, LD Vx, [I]: `V[0] .. V[x]` from `I .. I + x`; `I` is unchanged (R156). -/
def execLdVxMem (x : Reg) (s : State) : Result :=
  s.indexed x.val { s with v := loadRegs s.mem (s.ea 0) (x.val + 1) s.v }

end Sys2Proof.Machine
end

