-- ==== Sys2Proof/Machine/KeysTimers.lean ====
section
/-! DEFINITION. Key and timer instructions: EX9E, EXA1, FX07, FX0A, FX15, FX18 (spec 44_keys_timers.md). -/

namespace Sys2Proof.Machine

/-- EX9E, SKP Vx (R180). -/
def execSkp (x : Reg) (s : State) : Result :=
  match keyOf (s.getV x) with
  | none => raise (.keyIndexOutOfRange (s.getV x)) s
  | some k => .next (s.skipIf (s.keyDown k))

/-- EXA1, SKNP Vx (R181). -/
def execSknp (x : Reg) (s : State) : Result :=
  match keyOf (s.getV x) with
  | none => raise (.keyIndexOutOfRange (s.getV x)) s
  | some k => .next (s.skipIf (!s.keyDown k))

/-- FX07, LD Vx, DT (R183). -/
def execLdVxDt (x : Reg) (s : State) : Result := .next (s.setV x s.dt)

/-- FX0A, LD Vx, K: the lowest pressed key, or the fetch's advance undone so that the instruction is fetched again
(R182). -/
def execLdVxK (x : Reg) (s : State) : Result :=
  match s.lowestKey with
  | some k => .next (s.setV x (BitVec.ofNat 8 k))
  | none => .next (s.setPc s.pc0)

/-- FX15, LD DT, Vx (R184). -/
def execLdDtVx (x : Reg) (s : State) : Result := .next { s with dt := s.getV x }

/-- FX18, LD ST, Vx (R185). -/
def execLdStVx (x : Reg) (s : State) : Result := .next { s with st := s.getV x }

end Sys2Proof.Machine
end

