-- ==== Sys2Proof/Machine/Tick.lean ====
section
/-! DEFINITION. The execution cycle, spec 30_encoding.md R78, R79, R82: fetch, decode, execute, each once, in that
order. -/

namespace Sys2Proof.Machine

/-- `tick()` (R79). A faulted core does nothing (R78, R204); then the fetch's fault, then the decode's, then the
instruction (R82). A fault is taken, not answered: the next state holds it in `FAULT` (log entry 2). -/
def tick (s : State) : Result :=
  match s.fault with
  | some _ => .next s
  | none =>
    match s.fetch with
    | none => .next (s.takeFault .fetchOutOfBounds s.pc)
    | some w =>
      match decode w with
      | none => .next (s.takeFault (.illegalInstruction w) s.pc)
      | some i => exec i s.afterFetch

end Sys2Proof.Machine
end

