-- ==== Sys2Proof/Machine/Step.lean ====
section
/-! DEFINITION. One step of the machine is one `tick()` (spec 10_state.md R40, 30_encoding.md R79). The host's other
operations are in Machine/HostOps.lean. -/

namespace Sys2Proof.Machine

/-- One tick. -/
def step (s : State) : Host.Outcome State Fault Refusal := tick s

/-- `s` with the instruction whose bits are `w`, in the numbering of spec/opcode_table.json, placed where the next
step fetches (log entries 1, 18). -/
def State.withFetchWord (s : State) (nbits w : Nat) : State := s.placeWord (tableWord nbits w)

end Sys2Proof.Machine
end

