-- ==== Sys2Proof/Machine/HostOps.lean ====
section
/-! DEFINITION. The interface of the block: the host operations, their arguments, responses and outputs (spec
10_state.md R40 to R45; 20_memory.md R55 to R58; 60_exceptions.md R200, R204 to R206, R212 to R219). The host
chooses their order, one at a time (R44): `perform` is one operation, `runOps` a sequence of them. -/

namespace Sys2Proof.Machine

/-- The input ports `op`, `load_data`, `key_index`, `key_pressed` (R41). `rnd` is the free value of Config. -/
inductive HostOp where
  /-- construct or reset (R231) -/
  | reset
  /-- load(bytes) (R55) -/
  | load (bytes : List Byte)
  /-- tick() (R79) -/
  | tick
  /-- tick_timers() (R212) -/
  | tickTimers
  /-- keypress(index, pressed); the index is a natural number, so that one out of range can be given (R41, R216) -/
  | keypress (index : Nat) (pressed : Bool)
  /-- get_display() (R218) -/
  | getDisplay
deriving DecidableEq, Repr

/-- The host-call errors of R200. -/
inductive HostError where
  /-- 0x11: keypress with `index >= 16` (R217) -/
  | keypressIndexOutOfRange (index : Nat)
  /-- 0x12: load with `LOAD_ADDR + len > MEM_SIZE` (R56) -/
  | loadOutOfBounds (len : Nat)
deriving DecidableEq, Repr

/-- The numeric code of a host-call error (R200, decision D12). -/
def HostError.code : HostError → Nat
  | .keypressIndexOutOfRange _ => 0x11
  | .loadOutOfBounds _ => 0x12

/-- `resp` (R43): `OK`, `ERR` with an execution fault's record or a host-call error, or `UNSUPPORTED`. -/
inductive Response where
  | ok
  | errFault (r : FaultRecord)
  | errCall (e : HostError)
  | unsupported
deriving DecidableEq, Repr

/-- The output ports of an operation (R42): `display` is meaningful with GET_DISPLAY alone. `sound_on` is a function
of the state, `State.soundOn`. -/
structure Reply where
  resp : Response
  display : Option (List Bool)
  soundStop : Bool
deriving DecidableEq, Repr

/-- A reply with a response and nothing else. -/
def Reply.plain (r : Response) : Reply := ⟨r, none, false⟩

/-- `sound_on` = `ST != 0` (R214, decision D24). -/
def State.soundOn (s : State) : Bool := s.st != 0

/-- reset: the baseline of R230 from any state (R231). The counter of random draws is kept: the random input is not
the core's state, so a reset does not bring back bytes already drawn (log entry 3). -/
def State.hostReset (s : State) : State := { State.reset with draws := s.draws }

/-- What `load(b)` answers: the started check stands before the length check (R55, R207). -/
def State.loadResponse (s : State) (b : List Byte) : Response :=
  if s.started then .unsupported
  else if Config.loadAddr + b.length > Config.memSize then .errCall (.loadOutOfBounds b.length)
  else .ok

/-- What `load(b)` leaves: the bytes at `LOAD_ADDR ..` when it answers `OK`, and nothing changed otherwise (R55 to
R57). -/
def State.hostLoad (s : State) (b : List Byte) : State :=
  if s.loadResponse b = .ok then { s with mem := s.mem.writeBytes Config.loadAddr b } else s

/-- One timer tick: down by one while above zero (R212, R215). -/
def decTimer (t : Byte) : Byte := if t = 0 then 0 else t - 1

/-- What `tick_timers()` leaves (R212). -/
def State.hostTickTimers (s : State) : State := { s with dt := decTimer s.dt, st := decTimer s.st }

/-- The event `sound_stop` of a `tick_timers()` (R213). -/
def State.soundStop (s : State) : Bool := s.st == 1

/-- What `keypress(index, pressed)` leaves (R216, R217). -/
def State.hostKeypress (s : State) (index : Nat) (pressed : Bool) : State :=
  if h : index < Config.nKeys then { s with key := s.key.set index pressed h } else s

/-- What `keypress` answers (R216, R217). -/
def keypressResponse (index : Nat) : Response :=
  if index < Config.nKeys then .ok else .errCall (.keypressIndexOutOfRange index)

/-- The pixel grid, row-major: row 0 first, column 0 first (R218). -/
def State.display (s : State) : List Bool := s.fb.toList.flatMap Vector.toList

/-- What a tick that leaves `t` answers: a tick that raises, and a tick of a faulted core, leave the record in
`FAULT` and return it as `ERR`; any other tick leaves `FAULT = none` and returns `OK` (R79, R204). -/
def State.tickResponse (t : State) : Response :=
  match t.fault with
  | some r => .errFault r
  | none => .ok

/-- One host operation: the state after it and its outputs (R40). -/
def perform (op : HostOp) (s : State) : Host.Outcome (State × Reply) Fault Refusal :=
  match op with
  | .reset => .next (s.hostReset, .plain .ok)
  | .load b => .next (s.hostLoad b, .plain (s.loadResponse b))
  | .tick =>
    match step s with
    | .next t => .next (t, .plain t.tickResponse)
    | .fault e => .fault e
    | .refused r => .refused r
  | .tickTimers => .next (s.hostTickTimers, ⟨.ok, none, s.soundStop⟩)
  | .keypress k p => .next (s.hostKeypress k p, .plain (keypressResponse k))
  | .getDisplay => .next (s, ⟨.ok, some s.display, false⟩)

/-- A run of host operations, in the order the host gives (R44). A run with a load that answers `UNSUPPORTED` has no
meaning: it is refused (R57; 93_implementation_defined.md). -/
def runOps : List HostOp → State → Host.Outcome State Fault Refusal
  | [], s => .next s
  | op :: ops, s =>
    match perform op s with
    | .next (t, r) => if r.resp = .unsupported then .refused .loadAfterStart else runOps ops t
    | .fault e => .fault e
    | .refused e => .refused e

end Sys2Proof.Machine
end

