-- ==== Sys2Proof/Safety.lean ====
section
/-! DEFINITION. The terms in which claims are made: the FSM state, the end of a run (spec 30_encoding.md R78;
70_reset_and_hazards.md R246), the invariant of the machine, the components of the state one by one, and what it
means that an operation changes only some of them. -/

namespace Sys2Proof.Machine

/-- The states of the execution FSM (R78). -/
inductive FsmState where
  | ready
  | faulted
deriving DecidableEq, Repr

/-- READY while no fault is latched, FAULTED afterwards (R78). -/
def State.fsm (s : State) : FsmState := if s.fault = none then .ready else .faulted

/-- A healthy state: no fault recorded. Every claim that an instruction did its work takes or shows this (R204). -/
def State.healthy (s : State) : Prop := s.fault = none

/-- The bad end of a run (R246). -/
def State.badEnd (s : State) : Prop := s.fault ≠ none

/-- The good end of a run: the word at `PC` is a jump to itself and no fault is latched (R246). -/
def State.goodEnd (s : State) : Prop :=
  s.fault = none ∧ ∃ nnn : BitVec 12, s.fetch = some (encode (.jp nnn)) ∧ addr16 nnn = s.pc

/-- The invariant of the machine: memory is in its canonical form (R50); `PC` is at most 0x10FE (R22); every stack
slot is at most 4096, one past the last address a call can stand before (R103); a latched fault has its `pc0` in
`PC` and execution has started (R203). -/
structure State.Inv (s : State) : Prop where
  memWf : s.mem.wf = true
  pcBound : s.pc.toNat ≤ 0x10FE
  slotBound : ∀ k (h : k < Config.stackDepth), s.stk[k].toNat ≤ Config.memSize
  latch : ∀ r, s.fault = some r → r.pc0 = s.pc ∧ s.started = true

/-- The components of the state, one by one (R20). -/
inductive Component where
  | v (x : Reg)
  | pc
  | i
  | stk (k : Fin Config.stackDepth)
  | sp
  | dt
  | st
  | mem (a : Nat)
  | fb (px : Fin Config.dispW) (py : Fin Config.dispH)
  | key (k : Key)
  | fault
  | started
  | draws
deriving DecidableEq, Repr

/-- Two states agree on a component; memory is compared through the read of one byte. -/
def Component.Same (c : Component) (s t : State) : Prop :=
  match c with
  | .v x => t.getV x = s.getV x
  | .pc => t.pc = s.pc
  | .i => t.i = s.i
  | .stk k => t.stk[k.val] = s.stk[k.val]
  | .sp => t.sp = s.sp
  | .dt => t.dt = s.dt
  | .st => t.st = s.st
  | .mem a => t.mem.read a = s.mem.read a
  | .fb px py => t.fb.cell px py = s.fb.cell px py
  | .key k => t.keyDown k = s.keyDown k
  | .fault => t.fault = s.fault
  | .started => t.started = s.started
  | .draws => t.draws = s.draws

/-- From `s` to `t`, every component is unchanged except those `changed` names. -/
def UnchangedExcept (changed : Component → Prop) (s t : State) : Prop :=
  ∀ c, ¬ changed c → c.Same s t

/-- From `s`, the state after a fetch, to `t` an instruction raised `e` and did nothing else: `FAULT` holds the
error and `pc0`, `PC` is `pc0`, `STARTED` is 1, and nothing else changed (R203). -/
def Raised (e : Fault) (s t : State) : Prop :=
  t.fault = some ⟨e, s.pc0⟩ ∧ t.pc = s.pc0 ∧ t.started = true ∧
    UnchangedExcept (fun c => c = .fault ∨ c = .pc ∨ c = .started) s t

/-- The fault an instruction raises of its own, run on the state after its fetch, none where it raises nothing
(60_exceptions.md R200, R201). -/
def OwnFault (i : Instr) (s : State) : Option Fault :=
  match i with
  | .ret => if s.sp.val = 0 then some .stackUnderflow else none
  | .call _ => if s.sp.val = 16 then some .stackOverflow else none
  | .drw _ _ n =>
    if 0 < n ∧ s.i.toNat + n - 1 ≥ 4096 then some (.memOutOfBounds (max s.i.toNat 4096)) else none
  | .ldB _ => if s.i.toNat + 2 ≥ 4096 then some (.memOutOfBounds (max s.i.toNat 4096)) else none
  | .ldMemVx x | .ldVxMem x =>
    if s.i.toNat + x.val ≥ 4096 then some (.memOutOfBounds (max s.i.toNat 4096)) else none
  | .skp x | .sknp x => if (s.getV x).toNat ≥ 16 then some (.keyIndexOutOfRange (s.getV x)) else none
  | .cls | .jp _ | .seImm _ _ | .sneImm _ _ | .seReg _ _ | .sneReg _ _ | .jpV0 _ => none
  | .ldImm _ _ | .addImm _ _ | .ldReg _ _ | .orReg _ _ | .andReg _ _ | .xorReg _ _ | .addReg _ _ => none
  | .sub _ _ | .shr _ _ | .subn _ _ | .shl _ _ | .rnd _ _ => none
  | .ldI _ | .addI _ | .ldF _ | .ldVxDt _ | .ldVxK _ | .ldDtVx _ | .ldStVx _ => none

/-- The "written by" column of the access table, 10_state.md R38, for instructions, with the destination register,
the flag (R23) and the bytes stored (20_memory.md R51) read off the instruction and the state it starts in. `PC`,
`FAULT` and `STARTED` belong to the tick and to taking a fault; the model's own `draws` to CXNN. -/
def WrittenBy (i : Instr) (s : State) (c : Component) : Prop :=
  match c with
  | .v r =>
    match i with
    | .ldImm x _ | .addImm x _ | .ldReg x _ | .orReg x _ | .andReg x _ | .xorReg x _ | .rnd x _ => r = x
    | .addReg x _ | .sub x _ | .shr x _ | .subn x _ | .shl x _ => r = x ∨ r = VF
    | .ldVxDt x | .ldVxK x => r = x
    | .ldVxMem x => r ≤ x
    | .drw _ _ _ => r = VF
    | _ => False
  | .i => (∃ nnn, i = .ldI nnn) ∨ (∃ x, i = .addI x) ∨ (∃ x, i = .ldF x)
  | .stk k => (∃ nnn, i = .call nnn) ∧ k.val = s.sp.val
  | .sp => (∃ nnn, i = .call nnn) ∨ i = .ret
  | .dt => ∃ x, i = .ldDtVx x
  | .st => ∃ x, i = .ldStVx x
  | .mem a =>
    match i with
    | .ldB _ => s.ea 0 ≤ a ∧ a ≤ s.ea 2
    | .ldMemVx x => s.ea 0 ≤ a ∧ a ≤ s.ea x.val
    | _ => False
  | .fb _ _ => i = .cls ∨ ∃ x y n, i = .drw x y n
  | .key _ => False
  | .draws => ∃ x nn, i = .rnd x nn
  | .pc | .fault | .started => True

/-- The sprite of DXYN, drawn from `s`, has a set bit at column `px`, row `py` of the display: for some row `r` and
column `c` of the sprite, bit `7 - c` of the byte at `I + r` is 1 and the cell is the wrapped one (43_display.md
R171). -/
def SpriteCovers (s : State) (x y : Reg) (n : Nat) (px : Fin Config.dispW) (py : Fin Config.dispH) : Prop :=
  ∃ r c, r < n ∧ c < 8 ∧ (s.mem.read (s.i.toNat + r)).getLsbD (7 - c) = true ∧
    px.val = ((s.getV x).toNat + c) % 64 ∧ py.val = ((s.getV y).toNat + r) % 32

/-- Two states that differ at most in stale stack slots, those at or above `SP` (10_state.md R36). -/
def SameButStaleSlots (s t : State) : Prop :=
  t = { s with stk := t.stk } ∧ ∀ k (h : k < Config.stackDepth), k < s.sp.val → t.stk[k] = s.stk[k]

end Sys2Proof.Machine
end

