-- ==== Sys2Proof/Certificates/Slice0/Obligations.lean ====
section
/-! DEFINITION. The statements for the provers. Meanings are stated on the state after the fetch, in which `PC` is the
instruction's address plus 2 (spec 30_encoding.md R80) and `s.pc0 = s.pc - 2`; the statements of section 2 carry them
to a step. `UnchangedExcept`, `Raised`, `OwnFault`, `WrittenBy`, `SpriteCovers`, `State.Inv` are in Safety. -/

open Sys2Proof Sys2Proof.Machine

/-! ### 1. Encoding -/

/-- Every well-formed instruction is read back from its word, and from its bytes with the rest left over. -/
def Obligations.DecodeOfEncodeIsTheInstruction : Prop :=
  ∀ i : Instr, i.wf = true →
    decode (encode i) = some i ∧ ∀ rest, decodeBytes (encodeBytes i ++ rest) = .ok (i, rest)

/-- No word is read with a bit of it dropped: the encoder gives back every word that decodes, and only well-formed
instructions are read. -/
def Obligations.EncodeOfDecodeIsTheWord : Prop :=
  ∀ (w : Word) (i : Instr), decode w = some i → encode i = w ∧ i.wf = true

/-- A word that matches a row, by that row's mask and match, is that row's instruction; a word that matches none is
illegal. With two matching rows this would give two answers, so it also says that the rows are disjoint wherever
their instructions differ. -/
def Obligations.DecodeFollowsEveryTableRow : Prop :=
  ∀ w : Word,
    (∀ r ∈ opcodeTable, w &&& r.mask = r.code → decode w = some (r.build w)) ∧
    ((∀ r ∈ opcodeTable, w &&& r.mask ≠ r.code) → decode w = none)

/-- The illegal space by major opcode, as 30_encoding.md section 2 lists it. -/
def Obligations.IllegalWordsAreTheListedOnes : Prop :=
  ∀ w : Word, decode w = none ↔
    (w.extractLsb' 12 4 = 0x0#4 ∧ w ≠ 0x00E0 ∧ w ≠ 0x00EE) ∨
    (w.extractLsb' 12 4 = 0x5#4 ∧ w.extractLsb' 0 4 ≠ 0x0#4) ∨
    (w.extractLsb' 12 4 = 0x8#4 ∧ w.extractLsb' 0 4 ∈ [0x8#4, 0x9#4, 0xA#4, 0xB#4, 0xC#4, 0xD#4, 0xF#4]) ∨
    (w.extractLsb' 12 4 = 0x9#4 ∧ w.extractLsb' 0 4 ≠ 0x0#4) ∨
    (w.extractLsb' 12 4 = 0xE#4 ∧ w.extractLsb' 0 8 ∉ [0x9E#8, 0xA1#8]) ∨
    (w.extractLsb' 12 4 = 0xF#4 ∧
      w.extractLsb' 0 8 ∉ [0x07#8, 0x0A#8, 0x15#8, 0x18#8, 0x1E#8, 0x29#8, 0x33#8, 0x55#8, 0x65#8])

/-- A sanity check on words written out from the spec's encodings and decode vectors, one or more of every format
and family. -/
def Obligations.SampleWordsDecodeAsWrittenOut : Prop :=
  decode 0x00E0 = some .cls ∧ decode 0x00EE = some .ret ∧ decode 0x1FFF = some (.jp 0xFFF) ∧
  decode 0x3342 = some (.seImm 3 0x42) ∧ decode 0x5120 = some (.seReg 1 2) ∧
  decode 0x8124 = some (.addReg 1 2) ∧ decode 0x8FE6 = some (.shr 15 14) ∧ decode 0xC30F = some (.rnd 3 0x0F) ∧
  decode 0xD125 = some (.drw 1 2 5) ∧ decode 0xE19E = some (.skp 1) ∧ decode 0xF30A = some (.ldVxK 3) ∧
  decode 0xF533 = some (.ldB 5) ∧ decode 0xF265 = some (.ldVxMem 2) ∧ decode 0xA2F0 = some (.ldI 0x2F0) ∧
  decode 0x0000 = none ∧ decode 0x8128 = none ∧ decode 0xF175 = none

/-! ### 2. The tick -/

/-- When no fault is latched and the two bytes at `PC` decode to `i`, a step is `exec i` on the state with `PC`
advanced by 2 and `STARTED` set. -/
def Obligations.StepRunsTheDecodedInstruction : Prop :=
  ∀ (s : State) (i : Instr), s.fault = none → s.pc.toNat + 1 < 4096 →
    decode (s.mem.read s.pc.toNat ++ s.mem.read (s.pc.toNat + 1)) = some i →
    step s = exec i { s with pc := s.pc + 2, started := true }

/-- Fetch of R61: `(MEM[a] << 8) OR MEM[a+1]` at `a = PC`; when `a + 1 >= MEM_SIZE` there is no word and the tick of a
healthy core ends with `FetchOutOfBounds(a)`. 4094 is the largest `PC` that fetches. What such a tick leaves of the
state is in `FaultingTickCommitsNothing`. -/
def Obligations.FetchIsBigEndianAndBounded : Prop :=
  ∀ s : State,
    (s.pc.toNat ≤ 4094 →
      s.fetch = some (((s.mem.read s.pc.toNat).setWidth 16 <<< 8) ||| (s.mem.read (s.pc.toNat + 1)).setWidth 16)) ∧
    (s.pc.toNat > 4094 → s.fetch = none ∧
      (s.fault = none → ∃ t, perform .tick s = .next (t, ⟨.errFault ⟨.fetchOutOfBounds, s.pc⟩, none, false⟩)))

/-- A tick whose word matches no row raises `IllegalInstruction(w, pc0)`: the word and its address are recorded and
nothing else changes. The record and the roll-back are the spec's decisions D10, D11, D27. -/
def Obligations.IllegalWordIsRecordedWithItsAddress : Prop :=
  ∀ (s : State) (w : Word), s.fault = none → s.fetch = some w → decode w = none →
    step s = .next { s with started := true, fault := some ⟨.illegalInstruction w, s.pc⟩ }

/-- While a fault is latched a tick changes nothing and answers the same error again (the spec's decision D11). -/
def Obligations.FaultedTickRepeatsTheError : Prop :=
  ∀ (s : State) (r : FaultRecord), s.fault = some r →
    step s = .next s ∧ perform .tick s = .next (s, ⟨.errFault r, none, false⟩)

/-- Faults are precise and all-or-nothing, over every instruction and the fetch and decode faults: a tick that
latches a fault leaves every component as it was before the tick but for `STARTED` and `FAULT`, and the record holds
the address of the instruction. The spec's decision D10. -/
def Obligations.FaultingTickCommitsNothing : Prop :=
  ∀ s t : State, s.fault = none → step s = .next t → t.fault ≠ none →
    t = { s with started := true, fault := t.fault } ∧ ∃ e, t.fault = some ⟨e, s.pc⟩

/-- The core never stops by itself: in every state a tick answers a next state, so no well-formed or ill-formed word,
no fault and no data ends a run. -/
def Obligations.EveryTickAnswersANextState : Prop := ∀ s : State, ∃ t, step s = .next t

/-- Every instruction answers a next state from every healthy state; what it leaves latched is exactly the fault
that the taxonomy gives it there, with `pc0`, and nothing when it gives none. -/
def Obligations.InstructionsRaiseExactlyTheirOwnFaults : Prop :=
  ∀ (i : Instr) (s : State), s.fault = none →
    ∃ t, exec i s = .next t ∧ t.fault = (OwnFault i s).map fun e => ⟨e, s.pc0⟩

/-- An instruction that raises does nothing else: `PC` goes back to `pc0`, and every other component but `FAULT` and
`STARTED` is unchanged (the spec's decision D10). -/
def Obligations.RaisingInstructionWritesNothing : Prop :=
  ∀ (i : Instr) (s : State) (e : Fault), OwnFault i s = some e → ∃ t, exec i s = .next t ∧ Raised e s t

/-! ### 3. The machine as a whole -/

/-- The invariant holds after reset: canonical memory, `PC` and stack slots in their bounds, and the latch clause, that a
latched fault has its `pc0` in `PC` and comes with `STARTED`. That reset latches no fault is in `ResetLeavesTheBaseline`. -/
def Obligations.ResetMeetsTheMachineInvariant : Prop := State.reset.Inv

/-- Every step keeps the invariant: memory stays in canonical form, `PC` never passes 0x10FE, no stack slot passes
4096, and a latched fault stands at its instruction. -/
def Obligations.StepKeepsTheMachineInvariant : Prop :=
  ∀ s t : State, s.Inv → step s = .next t → t.Inv

/-- So does every host operation, whatever its arguments. -/
def Obligations.HostOperationsKeepTheMachineInvariant : Prop :=
  ∀ (op : HostOp) (s t : State) (r : Reply), s.Inv → perform op s = .next (t, r) → t.Inv

/-- The frame of all 34 instructions at once: a component that the access table does not give to an instruction is
unchanged by it, whether it completes or raises. -/
def Obligations.InstructionsWriteOnlyWhatTheAccessTableGives : Prop :=
  ∀ (i : Instr) (s t : State), exec i s = .next t → ∀ c, ¬ WrittenBy i s c → c.Same s t

/-- Where an instruction that does not raise leaves `PC`: after the fetch, two further for a skip, at the target of a
jump, call or return, or back at `pc0` for FX0A. -/
def Obligations.ControlGoesOnlyToTheListedTargets : Prop :=
  ∀ (i : Instr) (s t : State), OwnFault i s = none → exec i s = .next t →
    match i with
    | .jp nnn | .call nnn => t.pc = nnn.setWidth 16
    | .jpV0 nnn => t.pc.toNat = (s.getV 0).toNat + nnn.toNat
    | .ret => s.stk[s.sp.val - 1]? = some t.pc
    | .seImm _ _ | .sneImm _ _ | .seReg _ _ | .sneReg _ _ | .skp _ | .sknp _ => t.pc = s.pc ∨ t.pc = s.pc + 2
    | .ldVxK _ => t.pc = s.pc ∨ t.pc = s.pc - 2
    | _ => t.pc = s.pc

/-- The display is mutated only by 00E0, DXYN and reset; no other host operation writes it. -/
def Obligations.DisplayChangesOnlyByClearDrawAndReset : Prop :=
  (∀ s t : State, step s = .next t → t.fb ≠ s.fb →
    ∃ w, s.fetch = some w ∧ (decode w = some .cls ∨ ∃ x y n, decode w = some (.drw x y n))) ∧
  (∀ (op : HostOp) (s t : State) (r : Reply), op ≠ .tick → op ≠ .reset → perform op s = .next (t, r) → t.fb = s.fb)

/-- The timers are independent of instruction execution: a tick changes `DT` or `ST` only by FX15 or FX18, never by
counting; tick_timers counts each down by one, stops at zero and does nothing else; no other host operation but reset
touches them. -/
def Obligations.TimersChangeOnlyByTheirWriters : Prop :=
  (∀ s t : State, step s = .next t → t.dt ≠ s.dt →
    ∃ w x, s.fetch = some w ∧ decode w = some (.ldDtVx x) ∧ t.dt = s.getV x) ∧
  (∀ s t : State, step s = .next t → t.st ≠ s.st →
    ∃ w x, s.fetch = some w ∧ decode w = some (.ldStVx x) ∧ t.st = s.getV x) ∧
  (∀ s : State, ∃ t r, perform .tickTimers s = .next (t, r) ∧
    t.dt.toNat = s.dt.toNat - 1 ∧ t.st.toNat = s.st.toNat - 1 ∧
    UnchangedExcept (fun c => c = .dt ∨ c = .st) s t) ∧
  (∀ (op : HostOp) (s t : State) (r : Reply), op ≠ .tick → op ≠ .tickTimers → op ≠ .reset →
    perform op s = .next (t, r) → t.dt = s.dt ∧ t.st = s.st)

/-- Stale stack slots are never read: two states that differ only in slots at or above `SP` take steps to two states
that differ only so. It compares two runs: a CXNN draws the same byte in both because they hold the same counter `draws`,
the model's choice (log entry 3), so for that instruction it says nothing of two runs with different random inputs. That a
popped slot keeps its value is the spec's decision D17 (log entry 13). -/
def Obligations.StaleStackSlotsAreNeverRead : Prop :=
  ∀ s s' t : State, SameButStaleSlots s s' → step s = .next t →
    ∃ t', step s' = .next t' ∧ SameButStaleSlots t t'

/-- A good end stays: when the word at `PC` is a jump to itself and no fault is latched, every further tick leaves
the state unchanged. The definition of an end is the spec's decision D32. -/
def Obligations.JumpToItselfStaysForEver : Prop :=
  ∀ s : State, s.goodEnd → s.started = true → ∀ n, core.run n s = .next s

/-! ### 4. Memory -/

/-- Two memories in canonical form that read alike are the same data. -/
def Obligations.CanonicalMemoriesThatReadAlikeAreEqual : Prop :=
  ∀ m m' : Memory, m.wf = true → m'.wf = true → (∀ a, a < 4096 → m.read a = m'.read a) → m = m'

/-- A store over code is seen by the very next fetch: after FX55, a `PC` inside the stored bytes fetches the stored
registers. -/
def Obligations.StoreOverCodeIsFetchedNext : Prop :=
  ∀ (x : Reg) (s : State) (k : Nat) (hk : k + 1 ≤ x.val), s.mem.wf = true → s.i.toNat + x.val < 4096 →
    s.pc.toNat = s.i.toNat + k →
    ∃ t, exec (.ldMemVx x) s = .next t ∧
      t.fetch = some (s.getV ⟨k, by have := x.isLt; omega⟩ ++ s.getV ⟨k + 1, by have := x.isLt; omega⟩)

/-! ### 5. Control flow -/

/-- 00EE, RET. That the slot keeps its value is the spec's decision D17 (R27; log entry 13); that an underflow writes
nothing but the record, with `PC` back at `pc0`, and records `pc0`, is its decisions D10 and D27 (R203; log entry 12). -/
def Obligations.ReturnPopsTheProgramCounter : Prop :=
  decode 0x00EE = some .ret ∧
  ∀ s : State,
    (0 < s.sp.val → ∃ t, exec .ret s = .next t ∧ t.sp.val = s.sp.val - 1 ∧ s.stk[s.sp.val - 1]? = some t.pc ∧
      UnchangedExcept (fun c => c = .pc ∨ c = .sp) s t) ∧
    (s.sp.val = 0 → ∃ t, exec .ret s = .next t ∧ Raised .stackUnderflow s t)

/-- 1NNN, JP addr. -/
def Obligations.JumpLoadsTheAddress : Prop :=
  ∀ (nnn : BitVec 12) (s : State), decode (0x1#4 ++ nnn) = some (.jp nnn) ∧
    ∃ t, exec (.jp nnn) s = .next t ∧ t.pc = nnn.setWidth 16 ∧ UnchangedExcept (fun c => c = .pc) s t

/-- 2NNN, CALL addr. That an overflow writes nothing but the record, with `PC` back at `pc0`, and records `pc0`, is the
spec's decisions D10 and D27 (R203; log entry 12). -/
def Obligations.CallPushesTheFetchedProgramCounter : Prop :=
  ∀ (nnn : BitVec 12) (s : State), decode (0x2#4 ++ nnn) = some (.call nnn) ∧
    (s.sp.val < 16 → ∃ t, exec (.call nnn) s = .next t ∧ t.stk[s.sp.val]? = some s.pc ∧
      t.sp.val = s.sp.val + 1 ∧ t.pc = nnn.setWidth 16 ∧
      UnchangedExcept (fun c => c = .pc ∨ c = .sp ∨ ∃ k, c = .stk k ∧ k.val = s.sp.val) s t) ∧
    (s.sp.val = 16 → ∃ t, exec (.call nnn) s = .next t ∧ Raised .stackOverflow s t)

/-- A call and then a return from what it called resume after the call with the stack pointer as before. -/
def Obligations.ReturnResumesAfterTheCall : Prop :=
  ∀ (nnn : BitVec 12) (s : State), s.sp.val < 16 →
    ∃ t, exec (.call nnn) s = .next t ∧
      ∀ u : State, u.sp = t.sp → u.stk = t.stk → ∃ v, exec .ret u = .next v ∧ v.pc = s.pc ∧ v.sp = s.sp

/-- 3XNN, SE Vx, byte and 4XNN, SNE Vx, byte. -/
def Obligations.ImmediateSkipsCompareVxWithTheByte : Prop :=
  ∀ (x : Reg) (nn : Byte) (s : State),
    decode (0x3#4 ++ BitVec.ofNat 4 x.val ++ nn) = some (.seImm x nn) ∧
    decode (0x4#4 ++ BitVec.ofNat 4 x.val ++ nn) = some (.sneImm x nn) ∧
    (∃ t, exec (.seImm x nn) s = .next t ∧ t.pc = (if s.getV x = nn then s.pc + 2 else s.pc) ∧
      UnchangedExcept (fun c => c = .pc) s t) ∧
    (∃ t, exec (.sneImm x nn) s = .next t ∧ t.pc = (if s.getV x = nn then s.pc else s.pc + 2) ∧
      UnchangedExcept (fun c => c = .pc) s t)

/-- 5XY0, SE Vx, Vy and 9XY0, SNE Vx, Vy; with any other last nibble both words are illegal. -/
def Obligations.RegisterSkipsCompareVxWithVy : Prop :=
  ∀ (x y : Reg) (s : State),
    decode (0x5#4 ++ BitVec.ofNat 4 x.val ++ BitVec.ofNat 4 y.val ++ 0x0#4) = some (.seReg x y) ∧
    decode (0x9#4 ++ BitVec.ofNat 4 x.val ++ BitVec.ofNat 4 y.val ++ 0x0#4) = some (.sneReg x y) ∧
    (∀ n : BitVec 4, n ≠ 0 → decode (0x5#4 ++ BitVec.ofNat 4 x.val ++ BitVec.ofNat 4 y.val ++ n) = none ∧
      decode (0x9#4 ++ BitVec.ofNat 4 x.val ++ BitVec.ofNat 4 y.val ++ n) = none) ∧
    (∃ t, exec (.seReg x y) s = .next t ∧ t.pc = (if s.getV x = s.getV y then s.pc + 2 else s.pc) ∧
      UnchangedExcept (fun c => c = .pc) s t) ∧
    (∃ t, exec (.sneReg x y) s = .next t ∧ t.pc = (if s.getV x = s.getV y then s.pc else s.pc + 2) ∧
      UnchangedExcept (fun c => c = .pc) s t)

/-- BNNN, JP V0, addr: the sum is exact, never reduced to 12 bits; a target of 4095 or more makes the next tick fault.
No fault at the jump and none for an odd target: the spec's decision D9. -/
def Obligations.OffsetJumpAddsVZeroExactly : Prop :=
  ∀ (nnn : BitVec 12) (s : State), decode (0xB#4 ++ nnn) = some (.jpV0 nnn) ∧
    ∃ t, exec (.jpV0 nnn) s = .next t ∧ t.pc.toNat = (s.getV 0).toNat + nnn.toNat ∧
      UnchangedExcept (fun c => c = .pc) s t ∧
      (s.fault = none → 4095 ≤ (s.getV 0).toNat + nnn.toNat →
        step t = .next { t with started := true, fault := some ⟨.fetchOutOfBounds, t.pc⟩ })

/-! ### 6. Registers and ALU -/

/-- 6XNN, LD Vx, byte. -/
def Obligations.LoadImmediateSetsVx : Prop :=
  ∀ (x : Reg) (nn : Byte) (s : State), decode (0x6#4 ++ BitVec.ofNat 4 x.val ++ nn) = some (.ldImm x nn) ∧
    ∃ t, exec (.ldImm x nn) s = .next t ∧ t.getV x = nn ∧ UnchangedExcept (fun c => c = .v x) s t

/-- 7XNN, ADD Vx, byte: 8-bit wraparound, and `V[F]` is written only as the destination. -/
def Obligations.AddImmediateWrapsAndSetsNoFlag : Prop :=
  ∀ (x : Reg) (nn : Byte) (s : State), decode (0x7#4 ++ BitVec.ofNat 4 x.val ++ nn) = some (.addImm x nn) ∧
    ∃ t, exec (.addImm x nn) s = .next t ∧ (t.getV x).toNat = ((s.getV x).toNat + nn.toNat) % 256 ∧
      UnchangedExcept (fun c => c = .v x) s t

/-- 8XY0, LD Vx, Vy. -/
def Obligations.LoadRegisterCopiesVy : Prop :=
  ∀ (x y : Reg) (s : State),
    decode (0x8#4 ++ BitVec.ofNat 4 x.val ++ BitVec.ofNat 4 y.val ++ 0x0#4) = some (.ldReg x y) ∧
    ∃ t, exec (.ldReg x y) s = .next t ∧ t.getV x = s.getV y ∧ UnchangedExcept (fun c => c = .v x) s t

/-- 8XY1, 8XY2, 8XY3: OR, AND, XOR bit by bit; `V[F]` is not reset (the spec's decision D8). -/
def Obligations.LogicOperationsActBitByBit : Prop :=
  ∀ (x y : Reg) (s : State),
    (∃ t, exec (.orReg x y) s = .next t ∧ UnchangedExcept (fun c => c = .v x) s t ∧
      ∀ k, (t.getV x).getLsbD k = ((s.getV x).getLsbD k || (s.getV y).getLsbD k)) ∧
    (∃ t, exec (.andReg x y) s = .next t ∧ UnchangedExcept (fun c => c = .v x) s t ∧
      ∀ k, (t.getV x).getLsbD k = ((s.getV x).getLsbD k && (s.getV y).getLsbD k)) ∧
    (∃ t, exec (.xorReg x y) s = .next t ∧ UnchangedExcept (fun c => c = .v x) s t ∧
      ∀ k, (t.getV x).getLsbD k = ((s.getV x).getLsbD k ^^ (s.getV y).getLsbD k))

/-- 8XY4, ADD Vx, Vy: the sum modulo 256 and the carry, written last so that with `x = F` the carry stays (the spec's
decision D5). -/
def Obligations.AddSetsTheCarry : Prop :=
  ∀ (x y : Reg) (s : State),
    ∃ t, exec (.addReg x y) s = .next t ∧
      (x ≠ VF → (t.getV x).toNat = ((s.getV x).toNat + (s.getV y).toNat) % 256) ∧
      t.getV VF = (if (s.getV x).toNat + (s.getV y).toNat > 255 then 1 else 0) ∧
      UnchangedExcept (fun c => c = .v x ∨ c = .v VF) s t

/-- 8XY5, SUB Vx, Vy and 8XY7, SUBN Vx, Vy: the difference modulo 256 and NOT borrow, 1 for equal operands, written
last (the spec's decisions D5, D6). -/
def Obligations.SubtractionsSetNotBorrow : Prop :=
  ∀ (x y : Reg) (s : State),
    (∃ t, exec (.sub x y) s = .next t ∧
      (x ≠ VF → (t.getV x).toNat = ((s.getV x).toNat + 256 - (s.getV y).toNat) % 256) ∧
      t.getV VF = (if (s.getV x).toNat ≥ (s.getV y).toNat then 1 else 0) ∧
      UnchangedExcept (fun c => c = .v x ∨ c = .v VF) s t) ∧
    (∃ t, exec (.subn x y) s = .next t ∧
      (x ≠ VF → (t.getV x).toNat = ((s.getV y).toNat + 256 - (s.getV x).toNat) % 256) ∧
      t.getV VF = (if (s.getV y).toNat ≥ (s.getV x).toNat then 1 else 0) ∧
      UnchangedExcept (fun c => c = .v x ∨ c = .v VF) s t)

/-- 8XY6, SHR Vx and 8XYE, SHL Vx: by one, the bit shifted out in `V[F]`, written last (the spec's decision D5);
`V[y]` has no effect. -/
def Obligations.ShiftsPutTheBitShiftedOutInTheFlag : Prop :=
  ∀ (x y : Reg) (s : State),
    (∃ t, exec (.shr x y) s = .next t ∧ (x ≠ VF → (t.getV x).toNat = (s.getV x).toNat / 2) ∧
      (t.getV VF).toNat = (s.getV x).toNat % 2 ∧
      UnchangedExcept (fun c => c = .v x ∨ c = .v VF) s t) ∧
    (∃ t, exec (.shl x y) s = .next t ∧ (x ≠ VF → (t.getV x).toNat = (s.getV x).toNat * 2 % 256) ∧
      (t.getV VF).toNat = (s.getV x).toNat / 128 ∧
      UnchangedExcept (fun c => c = .v x ∨ c = .v VF) s t) ∧
    (∀ y' : Reg, exec (.shr x y) s = exec (.shr x y') s ∧ exec (.shl x y) s = exec (.shl x y') s)

/-- CXNN, RND Vx, byte: some byte, whichever the random input presents, ANDed with `nn`; one draw is consumed even
with `nn = 0`. The byte is a free value (the spec's decision D23; log entry 3). -/
def Obligations.RandomByteIsMasked : Prop :=
  ∀ (x : Reg) (nn : Byte) (s : State),
    ∃ t, exec (.rnd x nn) s = .next t ∧ t.getV x = Config.rnd s.draws &&& nn ∧
      (∀ k, nn.getLsbD k = false → (t.getV x).getLsbD k = false) ∧ t.draws = s.draws + 1 ∧
      UnchangedExcept (fun c => c = .v x ∨ c = .draws) s t

/-! ### 7. Index register and memory -/

/-- ANNN, LD I, addr. -/
def Obligations.LoadIndexSetsTheAddress : Prop :=
  ∀ (nnn : BitVec 12) (s : State), decode (0xA#4 ++ nnn) = some (.ldI nnn) ∧
    ∃ t, exec (.ldI nnn) s = .next t ∧ t.i = nnn.setWidth 16 ∧ UnchangedExcept (fun c => c = .i) s t

/-- FX1E, ADD I, Vx: 16-bit wraparound, no flag, no fault. -/
def Obligations.AddToIndexWrapsAtSixteenBits : Prop :=
  ∀ (x : Reg) (s : State), decode (0xF#4 ++ BitVec.ofNat 4 x.val ++ 0x1E#8) = some (.addI x) ∧
    ∃ t, exec (.addI x) s = .next t ∧ t.i.toNat = (s.i.toNat + (s.getV x).toNat) % 65536 ∧
      UnchangedExcept (fun c => c = .i) s t

/-- FX29, LD F, Vx: `I` is five times the whole of `V[x]`, and for a hex digit the bytes of a reset memory there are
that digit's glyph. Glyph height, font bytes and the missing mask are the spec's decisions D2, D3, D14 (log entries 7
and 10). -/
def Obligations.GlyphAddressIsFiveTimesVx : Prop :=
  ∀ (x : Reg) (s : State),
    ∃ t, exec (.ldF x) s = .next t ∧ t.i.toNat = (s.getV x).toNat * 5 ∧ UnchangedExcept (fun c => c = .i) s t ∧
      ((s.getV x).toNat < 16 → ∀ k < 5,
        Config.font[(s.getV x).toNat * 5 + k]? = some (State.reset.mem.read (t.i.toNat + k)))

/-- FX33, LD B, Vx with its three bytes in memory. The check of the range before any write is the spec's decision D15.
-/
def Obligations.DecimalDigitsAreStoredAtI : Prop :=
  ∀ (x : Reg) (s : State), s.mem.wf = true → s.i.toNat + 2 < 4096 →
    ∃ t, exec (.ldB x) s = .next t ∧
      (t.mem.read (s.ea 0)).toNat = (s.getV x).toNat / 100 ∧
      (t.mem.read (s.ea 1)).toNat = (s.getV x).toNat / 10 % 10 ∧
      (t.mem.read (s.ea 2)).toNat = (s.getV x).toNat % 10 ∧
      UnchangedExcept (fun c => ∃ a, c = .mem a ∧ s.ea 0 ≤ a ∧ a ≤ s.ea 2) s t

/-- FX55, LD [I], Vx with all its bytes in memory: `V[k]` at `I + k`, `I` unchanged (the spec's decision D7), the font
region not protected (D29). -/
def Obligations.RegistersAreStoredFromI : Prop :=
  ∀ (x : Reg) (s : State), s.mem.wf = true → s.i.toNat + x.val < 4096 →
    ∃ t, exec (.ldMemVx x) s = .next t ∧ (∀ k : Reg, k ≤ x → t.mem.read (s.ea k.val) = s.getV k) ∧
      UnchangedExcept (fun c => ∃ a, c = .mem a ∧ s.ea 0 ≤ a ∧ a ≤ s.ea x.val) s t

/-- FX65, LD Vx, [I] with all its bytes in memory: `V[k]` from `I + k`, registers above `x` and `I` unchanged (the
spec's decision D7). -/
def Obligations.RegistersAreLoadedFromI : Prop :=
  ∀ (x : Reg) (s : State), s.i.toNat + x.val < 4096 →
    ∃ t, exec (.ldVxMem x) s = .next t ∧ (∀ k : Reg, k ≤ x → t.getV k = s.mem.read (s.ea k.val)) ∧
      UnchangedExcept (fun c => ∃ k, c = .v k ∧ k ≤ x) s t

/-- FX33, FX55, FX65 and DXYN with any byte of the access outside memory raise `MemOutOfBounds` with the first address
at or above `MEM_SIZE`, and do nothing else (the spec's decisions D10, D15). -/
def Obligations.IndexedAccessBeyondMemoryRaises : Prop :=
  ∀ (x y : Reg) (s : State),
    (s.i.toNat + 2 ≥ 4096 → ∃ t, exec (.ldB x) s = .next t ∧ Raised (.memOutOfBounds (max s.i.toNat 4096)) s t) ∧
    (s.i.toNat + x.val ≥ 4096 →
      (∃ t, exec (.ldMemVx x) s = .next t ∧ Raised (.memOutOfBounds (max s.i.toNat 4096)) s t) ∧
      (∃ t, exec (.ldVxMem x) s = .next t ∧ Raised (.memOutOfBounds (max s.i.toNat 4096)) s t)) ∧
    (∀ n, 0 < n → s.i.toNat + n - 1 ≥ 4096 →
      ∃ t, exec (.drw x y n) s = .next t ∧ Raised (.memOutOfBounds (max s.i.toNat 4096)) s t)

/-! ### 8. Display -/

/-- 00E0, CLS. -/
def Obligations.ClearTurnsEveryCellOff : Prop :=
  decode 0x00E0 = some .cls ∧
  ∀ s : State, ∃ t, exec .cls s = .next t ∧ (∀ px py, t.fb.cell px py = false) ∧
    UnchangedExcept (fun c => ∃ px py, c = .fb px py) s t

/-- DXYN, DRW: after a draw whose sprite bytes exist, a cell is on exactly if it was on and the sprite does not cover
it, or was off and the sprite covers it; `V[F]` says whether the sprite covers a cell that was on; nothing else changes.
Covers `n = 0` (the spec's decision D16), wrapping, coordinates in `V[F]` (D5), bit 7 as the left column (D4). -/
def Obligations.DrawFlipsExactlyTheCoveredCells : Prop :=
  ∀ (x y : Reg) (n : Nat) (s : State), n < 16 → (n = 0 ∨ s.i.toNat + n - 1 < 4096) →
    ∃ t, exec (.drw x y n) s = .next t ∧
      (∀ px py, t.fb.cell px py = true ↔
        (s.fb.cell px py = true ∧ ¬ SpriteCovers s x y n px py) ∨
        (s.fb.cell px py = false ∧ SpriteCovers s x y n px py)) ∧
      ((∃ px py, s.fb.cell px py = true ∧ SpriteCovers s x y n px py) → t.getV VF = 1) ∧
      ((¬ ∃ px py, s.fb.cell px py = true ∧ SpriteCovers s x y n px py) → t.getV VF = 0) ∧
      UnchangedExcept (fun c => c = .v VF ∨ ∃ px py, c = .fb px py) s t

/-- The same sprite drawn again at the same position restores every cell, and the second draw reports a collision
exactly when the first turned a cell on. The second draw may name other registers, as long as they hold the same
coordinates, and run from any state with the display, `I` and memory of the first draw's end. -/
def Obligations.DrawingTwiceRestoresTheDisplay : Prop :=
  ∀ (x y x' y' : Reg) (n : Nat) (s t t' u : State), n < 16 → OwnFault (.drw x y n) s = none →
    exec (.drw x y n) s = .next t →
    t'.fb = t.fb → t'.i = s.i → t'.mem = s.mem → t'.getV x' = s.getV x → t'.getV y' = s.getV y →
    exec (.drw x' y' n) t' = .next u →
    u.fb = s.fb ∧ (u.getV VF = 1 ↔ ∃ px py, s.fb.cell px py = false ∧ t.fb.cell px py = true)

/-! ### 9. Keys and timers -/

/-- EX9E, SKP Vx and EXA1, SKNP Vx: the level of the key that `V[x]` names decides; `V[x] >= 16` raises
`KeyIndexOutOfRange(V[x])` (the spec's decision D13). -/
def Obligations.KeySkipsTestTheKeyLevel : Prop :=
  ∀ (x : Reg) (s : State),
    (∀ k : Key, (s.getV x).toNat = k.val →
      (∃ t, exec (.skp x) s = .next t ∧ t.pc = (if s.key[k.val] = true then s.pc + 2 else s.pc) ∧
        UnchangedExcept (fun c => c = .pc) s t) ∧
      (∃ t, exec (.sknp x) s = .next t ∧ t.pc = (if s.key[k.val] = true then s.pc else s.pc + 2) ∧
        UnchangedExcept (fun c => c = .pc) s t)) ∧
    (16 ≤ (s.getV x).toNat →
      (∃ t, exec (.skp x) s = .next t ∧ Raised (.keyIndexOutOfRange (s.getV x)) s t) ∧
      (∃ t, exec (.sknp x) s = .next t ∧ Raised (.keyIndexOutOfRange (s.getV x)) s t))

/-- FX0A, LD Vx, K: the lowest pressed key goes to `V[x]`; with none pressed only `PC` goes back to the instruction.
-/
def Obligations.KeyWaitTakesTheLowestPressedKey : Prop :=
  ∀ (x : Reg) (s : State), decode (0xF#4 ++ BitVec.ofNat 4 x.val ++ 0x0A#8) = some (.ldVxK x) ∧
    (∀ k : Key, s.key[k.val] = true → (∀ j : Key, s.key[j.val] = true → k ≤ j) →
      ∃ t, exec (.ldVxK x) s = .next t ∧ (t.getV x).toNat = k.val ∧ UnchangedExcept (fun c => c = .v x) s t) ∧
    ((∀ k : Key, s.key[k.val] = false) →
      ∃ t, exec (.ldVxK x) s = .next t ∧ t.pc = s.pc - 2 ∧ UnchangedExcept (fun c => c = .pc) s t)

/-- FX07, LD Vx, DT and FX15, LD DT, Vx. -/
def Obligations.DelayTimerIsReadAndWritten : Prop :=
  ∀ (x : Reg) (s : State),
    decode (0xF#4 ++ BitVec.ofNat 4 x.val ++ 0x07#8) = some (.ldVxDt x) ∧
    decode (0xF#4 ++ BitVec.ofNat 4 x.val ++ 0x15#8) = some (.ldDtVx x) ∧
    (∃ t, exec (.ldVxDt x) s = .next t ∧ t.getV x = s.dt ∧ UnchangedExcept (fun c => c = .v x) s t) ∧
    (∃ t, exec (.ldDtVx x) s = .next t ∧ t.dt = s.getV x ∧ UnchangedExcept (fun c => c = .dt) s t)

/-- FX18, LD ST, Vx, with the sound outputs it causes: `sound_on` follows `ST` at once (general knowledge, the spec's
decision D24), and the next tick_timers ends the sound with the event exactly when 1 was written. -/
def Obligations.SoundTimerIsWrittenAndHeard : Prop :=
  ∀ (x : Reg) (s : State),
    ∃ t, exec (.ldStVx x) s = .next t ∧ t.st = s.getV x ∧ UnchangedExcept (fun c => c = .st) s t ∧
      (t.soundOn = true ↔ s.getV x ≠ 0) ∧
      ∃ u r, perform .tickTimers t = .next (u, r) ∧ (r.soundStop = true ↔ (s.getV x).toNat = 1)

/-! ### 10. Host operations -/

/-- sound_stop is asserted by a tick_timers that finds `ST = 1`, and by no other operation. -/
def Obligations.SoundStopOnlyByTheLastTimerTick : Prop :=
  ∀ (op : HostOp) (s t : State) (r : Reply), perform op s = .next (t, r) →
    (r.soundStop = true ↔ op = .tickTimers ∧ s.st = 1)

/-- keypress sets one key, or answers an error and changes nothing; it never latches a fault (the spec's decision
D21). -/
def Obligations.KeypressSetsOneKeyOrAnswersAnError : Prop :=
  ∀ (k : Nat) (p : Bool) (s : State),
    (∀ h : k < 16, ∃ t, perform (.keypress k p) s = .next (t, ⟨.ok, none, false⟩) ∧ t.keyDown ⟨k, h⟩ = p ∧
      UnchangedExcept (fun c => c = .key ⟨k, h⟩) s t) ∧
    (16 ≤ k → perform (.keypress k p) s = .next (s, ⟨.errCall (.keypressIndexOutOfRange k), none, false⟩))

/-- get_display answers the grid row by row and changes nothing, faulted or not. -/
def Obligations.DisplayReadOutIsRowMajor : Prop :=
  ∀ s : State, ∃ d, perform .getDisplay s = .next (s, ⟨.ok, some d, false⟩) ∧ d.length = 2048 ∧
    ∀ k (h : k < 2048), d[k]? = some (s.fb.cell ⟨k % 64, Nat.mod_lt k (by decide)⟩ ⟨k / 64, Nat.div_lt_of_lt_mul h⟩)

/-- load before the start: the bytes stand at 0x200 on and nothing else changes; too long a sequence answers an error
and changes nothing; after the start the answer is UNSUPPORTED, whatever the length, and nothing changes (the spec's
decisions D18, D19, D21). -/
def Obligations.LoadCopiesTheBytesOrChangesNothing : Prop :=
  ∀ (b : List Byte) (s : State),
    (s.started = false → b.length ≤ 3584 → s.mem.wf = true →
      ∃ t, perform (.load b) s = .next (t, ⟨.ok, none, false⟩) ∧
        (∀ k < b.length, b[k]? = some (t.mem.read (0x200 + k))) ∧
        UnchangedExcept (fun c => ∃ a, c = .mem a ∧ 0x200 ≤ a ∧ a < 0x200 + b.length) s t) ∧
    (s.started = false → 3584 < b.length →
      perform (.load b) s = .next (s, ⟨.errCall (.loadOutOfBounds b.length), none, false⟩)) ∧
    (s.started = true → perform (.load b) s = .next (s, ⟨.unsupported, none, false⟩))

/-- Once a run has ticked, a load with no reset between gives the run no meaning: it is refused (the spec's decision
D19). -/
def Obligations.RunThatLoadsAfterATickIsRefused : Prop :=
  ∀ (ops ops' : List HostOp) (b : List Byte) (s : State),
    (∀ op ∈ ops, op ≠ .reset ∧ ∀ b', op ≠ .load b') → s.fault = none →
    runOps (.tick :: ops ++ .load b :: ops') s = .refused .loadAfterStart

/-- reset, from any state, faulted or not, answers OK and leaves the baseline: the values of the reset table. The
values for FONT, FAULT, SP, STARTED and KEY are the spec's decisions D2, D11, D17, D19, D20 (log entries 7, 12, 13); that
there is no sound is `sound_on = (ST != 0)`, PRESUMED (D24; log entry 14); the counter of the free value is kept (log
entry 3). -/
def Obligations.ResetLeavesTheBaseline : Prop :=
  ∀ s : State, ∃ t, perform .reset s = .next (t, ⟨.ok, none, false⟩) ∧
    (∀ x, t.getV x = 0) ∧ t.pc = 0x0200 ∧ t.i = 0 ∧ (∀ k : Fin Config.stackDepth, t.stk[k.val] = 0) ∧
    t.sp.val = 0 ∧ t.dt = 0 ∧ t.st = 0 ∧ (∀ a < 80, Config.font[a]? = some (t.mem.read a)) ∧
    (∀ a, 80 ≤ a → t.mem.read a = 0) ∧ (∀ px py, t.fb.cell px py = false) ∧ (∀ k, t.keyDown k = false) ∧
    t.fault = none ∧ t.started = false ∧ t.soundOn = false ∧ t.draws = s.draws

/-- tick_timers, keypress and get_display do the same, and answer the same, whether or not a fault is latched, and
leave the latch alone (the spec's decision D11). -/
def Obligations.FaultLatchDoesNotTouchTheDevices : Prop :=
  ∀ (op : HostOp) (s t : State) (r : Reply) (f : Option FaultRecord),
    op = .tickTimers ∨ (∃ k p, op = .keypress k p) ∨ op = .getDisplay →
    perform op s = .next (t, r) →
    t.fault = s.fault ∧ perform op { s with fault := f } = .next ({ t with fault := f }, r)
end

