-- ==== Sys2Proof/Laws/Decode.lean ====
section
/-! SUPPORT. The laws of words: what a format's mask keeps, which fields a format holds, and that the rows of the
decode table exclude each other (spec 30_encoding.md R71, R72, R75). -/

namespace Sys2Proof

/-- A 4-bit field under an all-ones mask. -/
theorem and_nibbleOnes (a : BitVec 4) : a &&& 0xF#4 = a := BitVec.and_allOnes

/-- An 8-bit field under an all-ones mask. -/
theorem and_byteOnes (a : BitVec 8) : a &&& 0xFF#8 = a := BitVec.and_allOnes

/-- The mask of formats A and XYN keeps the major opcode. -/
theorem formatA_mask (op : BitVec 4) (nnn : BitVec 12) : formatA op nnn &&& 0xF000 = op ++ 0x000#12 := by
  show (op ++ nnn) &&& (0xF#4 ++ 0x000#12) = _
  rw [BitVec.and_append, and_nibbleOnes, BitVec.and_zero]

/-- The mask of format XK keeps the major opcode. -/
theorem formatXK_mask (op : BitVec 4) (x : Reg) (nn : Byte) :
    formatXK op x nn &&& 0xF000 = op ++ 0x0#4 ++ 0x00#8 := by
  show (op ++ regBits x ++ nn) &&& (0xF#4 ++ 0x0#4 ++ 0x00#8) = _
  rw [BitVec.and_append, BitVec.and_append, and_nibbleOnes, BitVec.and_zero, BitVec.and_zero]

/-- The mask of format XY keeps the major opcode and the sub-opcode. -/
theorem formatXY_mask (op : BitVec 4) (x y : Reg) (n : BitVec 4) :
    formatXY op x y n &&& 0xF00F = op ++ 0x0#4 ++ 0x0#4 ++ n := by
  show (op ++ regBits x ++ regBits y ++ n) &&& (0xF#4 ++ 0x0#4 ++ 0x0#4 ++ 0xF#4) = op ++ 0x0#4 ++ 0x0#4 ++ n
  rw [BitVec.and_append, BitVec.and_append, BitVec.and_append, and_nibbleOnes, BitVec.and_zero, BitVec.and_zero,
    and_nibbleOnes]

/-- The mask of format XYN keeps the major opcode. -/
theorem formatXYN_mask (op : BitVec 4) (x y : Reg) (n : BitVec 4) :
    formatXY op x y n &&& 0xF000 = op ++ 0x0#4 ++ 0x0#4 ++ 0x0#4 := by
  show (op ++ regBits x ++ regBits y ++ n) &&& (0xF#4 ++ 0x0#4 ++ 0x0#4 ++ 0x0#4) = op ++ 0x0#4 ++ 0x0#4 ++ 0x0#4
  rw [BitVec.and_append, BitVec.and_append, BitVec.and_append, and_nibbleOnes, BitVec.and_zero, BitVec.and_zero,
    BitVec.and_zero]

/-- The mask of format XS keeps the major opcode and the sub-opcode. -/
theorem formatXS_mask (op : BitVec 4) (x : Reg) (nn : Byte) :
    formatXS op x nn &&& 0xF0FF = op ++ 0x0#4 ++ nn := by
  show (op ++ regBits x ++ nn) &&& (0xF#4 ++ 0x0#4 ++ 0xFF#8) = _
  rw [BitVec.and_append, BitVec.and_append, and_nibbleOnes, BitVec.and_zero, and_byteOnes]

/-- A register number is read back from its 4-bit field. -/
theorem toNat_regBits (x : Reg) : (regBits x).toNat = x.val := by
  simp only [regBits, BitVec.toNat_ofNat]
  exact Nat.mod_eq_of_lt x.isLt

theorem nnnField_formatA (op : BitVec 4) (nnn : BitVec 12) : nnnField (formatA op nnn) = nnn :=
  BitVec.extractLsb'_append_eq_right

theorem nnField_formatXK (op : BitVec 4) (x : Reg) (nn : Byte) : nnField (formatXK op x nn) = nn :=
  BitVec.extractLsb'_append_eq_right

theorem xField_formatXK (op : BitVec 4) (x : Reg) (nn : Byte) : xField (formatXK op x nn) = x := by
  apply Fin.ext
  show ((op ++ regBits x ++ nn).extractLsb' 8 4).toNat = x.val
  rw [BitVec.extractLsb'_append_eq_of_le (by decide), ← toNat_regBits x]
  exact congrArg BitVec.toNat BitVec.extractLsb'_append_eq_right

theorem xField_formatXS (op : BitVec 4) (x : Reg) (nn : Byte) : xField (formatXS op x nn) = x :=
  xField_formatXK op x nn

theorem xField_formatXY (op : BitVec 4) (x y : Reg) (n : BitVec 4) : xField (formatXY op x y n) = x := by
  apply Fin.ext
  show ((op ++ regBits x ++ regBits y ++ n).extractLsb' 8 4).toNat = x.val
  rw [BitVec.extractLsb'_append_eq_of_le (by decide), BitVec.extractLsb'_append_eq_of_le (by decide),
    ← toNat_regBits x]
  exact congrArg BitVec.toNat BitVec.extractLsb'_append_eq_right

theorem yField_formatXY (op : BitVec 4) (x y : Reg) (n : BitVec 4) : yField (formatXY op x y n) = y := by
  apply Fin.ext
  show ((op ++ regBits x ++ regBits y ++ n).extractLsb' 4 4).toNat = y.val
  rw [BitVec.extractLsb'_append_eq_of_le (by decide), ← toNat_regBits y]
  exact congrArg BitVec.toNat BitVec.extractLsb'_append_eq_right

theorem nField_formatXY (op : BitVec 4) (x y : Reg) (n : BitVec 4) : nField (formatXY op x y n) = n :=
  BitVec.extractLsb'_append_eq_right

/-- Two rows that some word matches both of: their masks and matches agree on the bits both fix. -/
theorem rows_agree {r r' : OpcodeRow} {w : Word} (h : w &&& r.mask = r.code) (h' : w &&& r'.mask = r'.code) :
    r.code &&& r'.mask = r'.code &&& r.mask := by
  rw [← h, ← h', BitVec.and_assoc, BitVec.and_assoc, BitVec.and_comm r.mask]

/-- No two rows of the decode table agree so (R75). -/
theorem opcodeTable_disjoint : opcodeTable.Pairwise fun r r' => r.code &&& r'.mask ≠ r'.code &&& r.mask := by
  decide

/-- The table has a row for each of the 34 instructions (R72). -/
theorem opcodeTable_length : opcodeTable.length = 34 := rfl

/-- Each customary form stands for exactly one row (R91). -/
theorem opcodeTable_forms_nodup : (opcodeTable.map fun r => r.form).Nodup := by decide

end Sys2Proof
end

