-- ==== Sys2Proof/Laws/Memory.lean ====
section
/-! SUPPORT. The laws of memory: a read returns the most recent write, every write keeps the canonical form, and
canonical memories that read alike are equal. -/

namespace Sys2Proof.Machine

/-- With the font at address 0, an unlisted address reads as the font's byte of that number, or 0 (R52, R230). -/
theorem Memory.unlisted_eq (a : Nat) : Memory.unlisted a = Config.font.getD a 0 := by
  simp [Memory.unlisted]

/-- Canonical form of a cell and the rest, unfolded once. -/
theorem Memory.wfFrom_cons {lo k : Nat} {b : Byte} {m : Memory} :
    Memory.wfFrom lo ((k, b) :: m) = true ↔
      lo ≤ k ∧ k < Config.memSize ∧ b ≠ Memory.unlisted k ∧ Memory.wfFrom (k + 1) m = true := by
  simp [Memory.wfFrom, and_assoc]

/-- Canonical form from an address on is canonical form from any lower one. -/
theorem Memory.wfFrom_mono {lo lo' : Nat} (h : lo' ≤ lo) {m : Memory} (hm : Memory.wfFrom lo m = true) :
    Memory.wfFrom lo' m = true := by
  cases m with
  | nil => rfl
  | cons c m =>
    obtain ⟨k, b⟩ := c
    rw [Memory.wfFrom_cons] at hm ⊢
    exact ⟨by omega, hm.2⟩

/-- Below its first address a canonical memory reads as nothing listed. -/
theorem Memory.read_below {m : Memory} : ∀ {lo a : Nat}, Memory.wfFrom lo m = true → a < lo →
    Memory.read m a = Memory.unlisted a := by
  induction m with
  | nil => intros; rfl
  | cons c m ih =>
    obtain ⟨k, b⟩ := c
    intro lo a hm ha
    rw [Memory.wfFrom_cons] at hm
    have hne : k ≠ a := by omega
    simpa [Memory.read, hne] using ih hm.2.2.2 (show a < k + 1 by omega)

/-- A write leaves every other address as it reads, in any memory. -/
theorem Memory.read_write_other {a k : Nat} (h : k ≠ a) (b : Byte) :
    ∀ m : Memory, Memory.read (Memory.write m a b) k = Memory.read m k := by
  intro m
  induction m with
  | nil => by_cases hb : b = Memory.unlisted a <;> simp [Memory.write, Memory.read, hb, h.symm]
  | cons c m ih =>
    obtain ⟨j, d⟩ := c
    simp only [Memory.write]
    split
    · split
      · rfl
      · simp [Memory.read, h.symm]
    · split
      · rename_i hj
        subst hj
        split <;> simp [Memory.read, h.symm]
      · simp only [Memory.read, ih]

/-- A read of the address just written returns the byte, in a canonical memory. -/
theorem Memory.read_write_same {a : Nat} (b : Byte) : ∀ {m : Memory} {lo : Nat}, Memory.wfFrom lo m = true →
    Memory.read (Memory.write m a b) a = b := by
  intro m
  induction m with
  | nil =>
    intro lo _
    by_cases hb : b = Memory.unlisted a
    · simp [Memory.write, Memory.read, ← hb]
    · simp [Memory.write, Memory.read, hb]
  | cons c m ih =>
    obtain ⟨j, d⟩ := c
    intro lo hm
    have hm' := Memory.wfFrom_cons.1 hm
    simp only [Memory.write]
    split
    · rename_i hlt
      split
      · rename_i hb
        have hj : Memory.wfFrom j ((j, d) :: m) = true := Memory.wfFrom_cons.2 ⟨le_refl _, hm'.2⟩
        rw [Memory.read_below hj hlt, hb]
      · simp [Memory.read]
    · split
      · rename_i _ he
        subst he
        split
        · rename_i hb
          rw [Memory.read_below hm'.2.2.2 (Nat.lt_succ_self a), hb]
        · simp [Memory.read]
      · rename_i _ hne
        simpa [Memory.read, Ne.symm hne] using ih hm'.2.2.2

/-- A write at an address that exists keeps the canonical form from any address at or below it. -/
theorem Memory.wfFrom_write {a : Nat} (ha : a < 4096) (b : Byte) : ∀ {m : Memory} {lo : Nat}, lo ≤ a →
    Memory.wfFrom lo m = true → Memory.wfFrom lo (Memory.write m a b) = true := by
  intro m
  induction m with
  | nil =>
    intro lo hlo _
    by_cases hb : b = Memory.unlisted a
    · simp [Memory.write, Memory.wfFrom, hb]
    · simpa [Memory.write, Memory.wfFrom, hb] using ⟨hlo, ha⟩
  | cons c m ih =>
    obtain ⟨j, d⟩ := c
    intro lo hlo hm
    have hm' := Memory.wfFrom_cons.1 hm
    simp only [Memory.write]
    split
    · rename_i hlt
      split
      · exact hm
      · rename_i hb
        exact Memory.wfFrom_cons.2 ⟨hlo, ha, hb, Memory.wfFrom_cons.2 ⟨hlt, hm'.2⟩⟩
    · split
      · rename_i _ he
        subst he
        split
        · exact Memory.wfFrom_mono (by omega) hm'.2.2.2
        · rename_i hb
          exact Memory.wfFrom_cons.2 ⟨hlo, ha, hb, hm'.2.2.2⟩
      · rename_i hge hne
        exact Memory.wfFrom_cons.2 ⟨hm'.1, hm'.2.1, hm'.2.2.1, ih (by omega) hm'.2.2.2⟩

/-- Reset memory is canonical. -/
theorem Memory.wf_nil : Memory.wf [] = true := rfl

/-- A write at an address that exists keeps the canonical form. -/
theorem Memory.wf_write {m : Memory} (hm : m.wf = true) {a : Nat} (ha : a < 4096) (b : Byte) :
    (m.write a b).wf = true := Memory.wfFrom_write ha b (Nat.zero_le a) hm

/-- The one read-after-write law of a canonical memory. -/
theorem Memory.read_write {m : Memory} (hm : m.wf = true) (a k : Nat) (b : Byte) :
    (m.write a b).read k = if k = a then b else m.read k := by
  split
  · rename_i h; subst h; exact Memory.read_write_same b hm
  · rename_i h; exact Memory.read_write_other h b m

/-- Storing bytes inside memory keeps the canonical form. -/
theorem Memory.wf_writeBytes : ∀ (bs : List Byte) {m : Memory} {a : Nat}, m.wf = true →
    a + bs.length ≤ 4096 → (m.writeBytes a bs).wf = true := by
  intro bs
  induction bs with
  | nil => intro m a hm _; exact hm
  | cons b bs ih =>
    intro m a hm hl
    simp only [List.length_cons] at hl
    exact ih (Memory.wf_write hm (by omega) b) (by omega)

/-- Storing bytes leaves every address outside them as it reads, in any memory. -/
theorem Memory.read_writeBytes_other : ∀ (bs : List Byte) {m : Memory} {a k : Nat}, k < a ∨ a + bs.length ≤ k →
    (m.writeBytes a bs).read k = m.read k := by
  intro bs
  induction bs with
  | nil => intros; rfl
  | cons b bs ih =>
    intro m a k hk
    simp only [List.length_cons] at hk
    simp only [Memory.writeBytes]
    rw [ih (by omega), Memory.read_write_other (by omega)]

/-- The bytes stored are read back, in a canonical memory. -/
theorem Memory.read_writeBytes : ∀ (bs : List Byte) {m : Memory} {a : Nat}, m.wf = true →
    a + bs.length ≤ 4096 → ∀ (k : Nat) (h : k < bs.length), (m.writeBytes a bs).read (a + k) = bs[k] := by
  intro bs
  induction bs with
  | nil => intro m a _ _ k h; simp at h
  | cons b bs ih =>
    intro m a hm hl k hk
    simp only [List.length_cons] at hl hk
    simp only [Memory.writeBytes]
    cases k with
    | zero =>
      rw [Memory.read_writeBytes_other bs (by omega), Memory.read_write hm]
      simp
    | succ k =>
      have := ih (Memory.wf_write hm (show a < 4096 by omega) b) (a := a + 1) (by omega) k (by omega)
      simpa [Nat.add_assoc, Nat.add_comm 1 k] using this

end Sys2Proof.Machine
end

