-- ==== Sys2Proof/Laws/State.lean ====
section
/-! SUPPORT. One lemma for each field of the state and each update of it, true by rfl, so that no proof unfolds a
record update; and the register read through each of them. -/

namespace Sys2Proof.Machine

variable (s : State)

/-! ### setV -/

@[simp] theorem State.setV_v (x : Reg) (b : Byte) : (s.setV x b).v = s.v.set x.val b := rfl
@[simp] theorem State.setV_pc (x : Reg) (b : Byte) : (s.setV x b).pc = s.pc := rfl
@[simp] theorem State.setV_i (x : Reg) (b : Byte) : (s.setV x b).i = s.i := rfl
@[simp] theorem State.setV_stk (x : Reg) (b : Byte) : (s.setV x b).stk = s.stk := rfl
@[simp] theorem State.setV_sp (x : Reg) (b : Byte) : (s.setV x b).sp = s.sp := rfl
@[simp] theorem State.setV_dt (x : Reg) (b : Byte) : (s.setV x b).dt = s.dt := rfl
@[simp] theorem State.setV_st (x : Reg) (b : Byte) : (s.setV x b).st = s.st := rfl
@[simp] theorem State.setV_mem (x : Reg) (b : Byte) : (s.setV x b).mem = s.mem := rfl
@[simp] theorem State.setV_fb (x : Reg) (b : Byte) : (s.setV x b).fb = s.fb := rfl
@[simp] theorem State.setV_key (x : Reg) (b : Byte) : (s.setV x b).key = s.key := rfl
@[simp] theorem State.setV_fault (x : Reg) (b : Byte) : (s.setV x b).fault = s.fault := rfl
@[simp] theorem State.setV_started (x : Reg) (b : Byte) : (s.setV x b).started = s.started := rfl
@[simp] theorem State.setV_draws (x : Reg) (b : Byte) : (s.setV x b).draws = s.draws := rfl

/-! ### setPc -/

@[simp] theorem State.setPc_v (a : Word) : (s.setPc a).v = s.v := rfl
@[simp] theorem State.setPc_pc (a : Word) : (s.setPc a).pc = a := rfl
@[simp] theorem State.setPc_i (a : Word) : (s.setPc a).i = s.i := rfl
@[simp] theorem State.setPc_stk (a : Word) : (s.setPc a).stk = s.stk := rfl
@[simp] theorem State.setPc_sp (a : Word) : (s.setPc a).sp = s.sp := rfl
@[simp] theorem State.setPc_dt (a : Word) : (s.setPc a).dt = s.dt := rfl
@[simp] theorem State.setPc_st (a : Word) : (s.setPc a).st = s.st := rfl
@[simp] theorem State.setPc_mem (a : Word) : (s.setPc a).mem = s.mem := rfl
@[simp] theorem State.setPc_fb (a : Word) : (s.setPc a).fb = s.fb := rfl
@[simp] theorem State.setPc_key (a : Word) : (s.setPc a).key = s.key := rfl
@[simp] theorem State.setPc_fault (a : Word) : (s.setPc a).fault = s.fault := rfl
@[simp] theorem State.setPc_started (a : Word) : (s.setPc a).started = s.started := rfl
@[simp] theorem State.setPc_draws (a : Word) : (s.setPc a).draws = s.draws := rfl
@[simp] theorem State.getV_setPc (a : Word) (r : Reg) : (s.setPc a).getV r = s.getV r := rfl
@[simp] theorem State.keyDown_setPc (a : Word) (k : Key) : (s.setPc a).keyDown k = s.keyDown k := rfl

/-! ### setI -/

@[simp] theorem State.setI_v (a : Word) : (s.setI a).v = s.v := rfl
@[simp] theorem State.setI_pc (a : Word) : (s.setI a).pc = s.pc := rfl
@[simp] theorem State.setI_i (a : Word) : (s.setI a).i = a := rfl
@[simp] theorem State.setI_stk (a : Word) : (s.setI a).stk = s.stk := rfl
@[simp] theorem State.setI_sp (a : Word) : (s.setI a).sp = s.sp := rfl
@[simp] theorem State.setI_dt (a : Word) : (s.setI a).dt = s.dt := rfl
@[simp] theorem State.setI_st (a : Word) : (s.setI a).st = s.st := rfl
@[simp] theorem State.setI_mem (a : Word) : (s.setI a).mem = s.mem := rfl
@[simp] theorem State.setI_fb (a : Word) : (s.setI a).fb = s.fb := rfl
@[simp] theorem State.setI_key (a : Word) : (s.setI a).key = s.key := rfl
@[simp] theorem State.setI_fault (a : Word) : (s.setI a).fault = s.fault := rfl
@[simp] theorem State.setI_started (a : Word) : (s.setI a).started = s.started := rfl
@[simp] theorem State.setI_draws (a : Word) : (s.setI a).draws = s.draws := rfl
@[simp] theorem State.getV_setI (a : Word) (r : Reg) : (s.setI a).getV r = s.getV r := rfl
@[simp] theorem State.keyDown_setI (a : Word) (k : Key) : (s.setI a).keyDown k = s.keyDown k := rfl

/-! ### takeFault -/

@[simp] theorem State.takeFault_v (e : Fault) (a : Word) : (s.takeFault e a).v = s.v := rfl
@[simp] theorem State.takeFault_pc (e : Fault) (a : Word) : (s.takeFault e a).pc = a := rfl
@[simp] theorem State.takeFault_i (e : Fault) (a : Word) : (s.takeFault e a).i = s.i := rfl
@[simp] theorem State.takeFault_stk (e : Fault) (a : Word) : (s.takeFault e a).stk = s.stk := rfl
@[simp] theorem State.takeFault_sp (e : Fault) (a : Word) : (s.takeFault e a).sp = s.sp := rfl
@[simp] theorem State.takeFault_dt (e : Fault) (a : Word) : (s.takeFault e a).dt = s.dt := rfl
@[simp] theorem State.takeFault_st (e : Fault) (a : Word) : (s.takeFault e a).st = s.st := rfl
@[simp] theorem State.takeFault_mem (e : Fault) (a : Word) : (s.takeFault e a).mem = s.mem := rfl
@[simp] theorem State.takeFault_fb (e : Fault) (a : Word) : (s.takeFault e a).fb = s.fb := rfl
@[simp] theorem State.takeFault_key (e : Fault) (a : Word) : (s.takeFault e a).key = s.key := rfl
@[simp] theorem State.takeFault_fault (e : Fault) (a : Word) : (s.takeFault e a).fault = some ⟨e, a⟩ := rfl
@[simp] theorem State.takeFault_started (e : Fault) (a : Word) : (s.takeFault e a).started = true := rfl
@[simp] theorem State.takeFault_draws (e : Fault) (a : Word) : (s.takeFault e a).draws = s.draws := rfl
@[simp] theorem State.getV_takeFault (e : Fault) (a : Word) (r : Reg) : (s.takeFault e a).getV r = s.getV r := rfl
@[simp] theorem State.keyDown_takeFault (e : Fault) (a : Word) (k : Key) : (s.takeFault e a).keyDown k = s.keyDown k := rfl

/-! ### afterFetch -/

@[simp] theorem State.afterFetch_v : (s.afterFetch).v = s.v := rfl
@[simp] theorem State.afterFetch_pc : (s.afterFetch).pc = s.pc + 2 := rfl
@[simp] theorem State.afterFetch_i : (s.afterFetch).i = s.i := rfl
@[simp] theorem State.afterFetch_stk : (s.afterFetch).stk = s.stk := rfl
@[simp] theorem State.afterFetch_sp : (s.afterFetch).sp = s.sp := rfl
@[simp] theorem State.afterFetch_dt : (s.afterFetch).dt = s.dt := rfl
@[simp] theorem State.afterFetch_st : (s.afterFetch).st = s.st := rfl
@[simp] theorem State.afterFetch_mem : (s.afterFetch).mem = s.mem := rfl
@[simp] theorem State.afterFetch_fb : (s.afterFetch).fb = s.fb := rfl
@[simp] theorem State.afterFetch_key : (s.afterFetch).key = s.key := rfl
@[simp] theorem State.afterFetch_fault : (s.afterFetch).fault = s.fault := rfl
@[simp] theorem State.afterFetch_started : (s.afterFetch).started = true := rfl
@[simp] theorem State.afterFetch_draws : (s.afterFetch).draws = s.draws := rfl
@[simp] theorem State.getV_afterFetch (r : Reg) : (s.afterFetch).getV r = s.getV r := rfl
@[simp] theorem State.keyDown_afterFetch (k : Key) : (s.afterFetch).keyDown k = s.keyDown k := rfl

/-! ### storeAtI -/

@[simp] theorem State.storeAtI_v (bs : List Byte) : (s.storeAtI bs).v = s.v := rfl
@[simp] theorem State.storeAtI_pc (bs : List Byte) : (s.storeAtI bs).pc = s.pc := rfl
@[simp] theorem State.storeAtI_i (bs : List Byte) : (s.storeAtI bs).i = s.i := rfl
@[simp] theorem State.storeAtI_stk (bs : List Byte) : (s.storeAtI bs).stk = s.stk := rfl
@[simp] theorem State.storeAtI_sp (bs : List Byte) : (s.storeAtI bs).sp = s.sp := rfl
@[simp] theorem State.storeAtI_dt (bs : List Byte) : (s.storeAtI bs).dt = s.dt := rfl
@[simp] theorem State.storeAtI_st (bs : List Byte) : (s.storeAtI bs).st = s.st := rfl
@[simp] theorem State.storeAtI_mem (bs : List Byte) : (s.storeAtI bs).mem = s.mem.writeBytes (s.ea 0) bs := rfl
@[simp] theorem State.storeAtI_fb (bs : List Byte) : (s.storeAtI bs).fb = s.fb := rfl
@[simp] theorem State.storeAtI_key (bs : List Byte) : (s.storeAtI bs).key = s.key := rfl
@[simp] theorem State.storeAtI_fault (bs : List Byte) : (s.storeAtI bs).fault = s.fault := rfl
@[simp] theorem State.storeAtI_started (bs : List Byte) : (s.storeAtI bs).started = s.started := rfl
@[simp] theorem State.storeAtI_draws (bs : List Byte) : (s.storeAtI bs).draws = s.draws := rfl
@[simp] theorem State.getV_storeAtI (bs : List Byte) (r : Reg) : (s.storeAtI bs).getV r = s.getV r := rfl
@[simp] theorem State.keyDown_storeAtI (bs : List Byte) (k : Key) : (s.storeAtI bs).keyDown k = s.keyDown k := rfl

/-! ### hostReset -/

@[simp] theorem State.hostReset_v : (s.hostReset).v = State.reset.v := rfl
@[simp] theorem State.hostReset_pc : (s.hostReset).pc = State.reset.pc := rfl
@[simp] theorem State.hostReset_i : (s.hostReset).i = State.reset.i := rfl
@[simp] theorem State.hostReset_stk : (s.hostReset).stk = State.reset.stk := rfl
@[simp] theorem State.hostReset_sp : (s.hostReset).sp = State.reset.sp := rfl
@[simp] theorem State.hostReset_dt : (s.hostReset).dt = State.reset.dt := rfl
@[simp] theorem State.hostReset_st : (s.hostReset).st = State.reset.st := rfl
@[simp] theorem State.hostReset_mem : (s.hostReset).mem = State.reset.mem := rfl
@[simp] theorem State.hostReset_fb : (s.hostReset).fb = State.reset.fb := rfl
@[simp] theorem State.hostReset_key : (s.hostReset).key = State.reset.key := rfl
@[simp] theorem State.hostReset_fault : (s.hostReset).fault = State.reset.fault := rfl
@[simp] theorem State.hostReset_started : (s.hostReset).started = State.reset.started := rfl
@[simp] theorem State.hostReset_draws : (s.hostReset).draws = s.draws := rfl

/-! ### hostTickTimers -/

@[simp] theorem State.hostTickTimers_v : (s.hostTickTimers).v = s.v := rfl
@[simp] theorem State.hostTickTimers_pc : (s.hostTickTimers).pc = s.pc := rfl
@[simp] theorem State.hostTickTimers_i : (s.hostTickTimers).i = s.i := rfl
@[simp] theorem State.hostTickTimers_stk : (s.hostTickTimers).stk = s.stk := rfl
@[simp] theorem State.hostTickTimers_sp : (s.hostTickTimers).sp = s.sp := rfl
@[simp] theorem State.hostTickTimers_dt : (s.hostTickTimers).dt = decTimer s.dt := rfl
@[simp] theorem State.hostTickTimers_st : (s.hostTickTimers).st = decTimer s.st := rfl
@[simp] theorem State.hostTickTimers_mem : (s.hostTickTimers).mem = s.mem := rfl
@[simp] theorem State.hostTickTimers_fb : (s.hostTickTimers).fb = s.fb := rfl
@[simp] theorem State.hostTickTimers_key : (s.hostTickTimers).key = s.key := rfl
@[simp] theorem State.hostTickTimers_fault : (s.hostTickTimers).fault = s.fault := rfl
@[simp] theorem State.hostTickTimers_started : (s.hostTickTimers).started = s.started := rfl
@[simp] theorem State.hostTickTimers_draws : (s.hostTickTimers).draws = s.draws := rfl
@[simp] theorem State.getV_hostTickTimers (r : Reg) : (s.hostTickTimers).getV r = s.getV r := rfl
@[simp] theorem State.keyDown_hostTickTimers (k : Key) : (s.hostTickTimers).keyDown k = s.keyDown k := rfl

/-! ### Registers -/

/-- What a register holds after a register write. -/
theorem State.getV_setV (x : Reg) (b : Byte) (r : Reg) : (s.setV x b).getV r = if r = x then b else s.getV r := by
  simp [State.getV, State.setV, Vector.getElem_set, Fin.ext_iff, eq_comm]

@[simp] theorem State.getV_setV_same (x : Reg) (b : Byte) : (s.setV x b).getV x = b := by
  simp [State.getV_setV]

theorem State.getV_setV_other (x : Reg) (b : Byte) {r : Reg} (h : r ≠ x) : (s.setV x b).getV r = s.getV r := by
  simp [State.getV_setV, h]

@[simp] theorem State.keyDown_setV (x : Reg) (b : Byte) (k : Key) : (s.setV x b).keyDown k = s.keyDown k := rfl

/-- The result register after a result and a flag: the flag, if they are one register (R120). -/
theorem State.getV_setResultFlag (x : Reg) (r : Byte) (c : Bool) (q : Reg) :
    (s.setResultFlag x r c).getV q = if q = VF then flagByte c else if q = x then r else s.getV q := by
  simp [State.setResultFlag, State.setFlag, State.getV_setV]

theorem State.skipIf_eq (c : Bool) : s.skipIf c = s.setPc (if c then s.pc + 2 else s.pc) := by
  cases c <;> rfl

end Sys2Proof.Machine
end

