-- ==== Sys2Proof/Laws/Ops.lean ====
section
/-! SUPPORT. One lemma for each shared operation that says once what it can do; proofs cite these and do not unfold
the operation. -/

namespace Sys2Proof.Machine

/-! ### Stack -/

/-- Everything a pop can do (R27). -/
theorem State.pop_cases (s : State) :
    (s.sp.val = 0 ∧ s.pop = none) ∨
    (0 < s.sp.val ∧ ∃ a t, s.pop = some (a, t) ∧ s.stk[s.sp.val - 1]? = some a ∧ t.sp.val = s.sp.val - 1 ∧
      t = { s with sp := t.sp }) := by
  unfold State.pop
  split
  · rename_i h
    refine .inr ⟨h, _, _, rfl, ?_, rfl, rfl⟩
    rw [Vector.getElem?_eq_getElem]
  · rename_i h
    exact .inl ⟨by omega, rfl⟩

/-- Everything a push can do (R27). -/
theorem State.push_cases (s : State) (a : Word) :
    (s.sp.val = 16 ∧ s.push a = none) ∨
    (s.sp.val < 16 ∧ ∃ t, s.push a = some t ∧ t.sp.val = s.sp.val + 1 ∧
      (∀ k : Nat, t.stk[k]? = if k = s.sp.val then some a else s.stk[k]?) ∧ t = { s with sp := t.sp, stk := t.stk }) := by
  have hlt := s.sp.isLt
  unfold State.push
  split
  · rename_i h
    refine .inr ⟨h, _, rfl, rfl, fun k => ?_, rfl⟩
    have h16 : s.sp.val < 16 := h
    simp only [Vector.getElem?_set]
    by_cases hk : k = s.sp.val
    · simp [hk]
    · simp [hk, Ne.symm hk]
  · rename_i h
    simp only [Config.stackDepth] at h hlt
    exact .inl ⟨by omega, rfl⟩

/-! ### Faults -/

/-- What raising does: it answers a next state, in which the fault is taken at `pc0` (R203). -/
theorem raise_eq (e : Fault) (s : State) : raise e s = .next (s.takeFault e s.pc0) := rfl

/-- Raising changes nothing but the latch, `PC` and `STARTED` (R203). -/
theorem raised_takeFault (e : Fault) (s : State) : Raised e s (s.takeFault e s.pc0) := by
  refine ⟨rfl, rfl, rfl, fun c hc => ?_⟩
  cases c <;> first | rfl | simp at hc

/-! ### Memory through `I` -/

/-- Everything the range check can do (R150). -/
theorem State.indexed_cases (s : State) (kmax : Nat) (t : State) :
    (s.i.toNat + kmax < 4096 ∧ s.indexed kmax t = .next t) ∨
    (4096 ≤ s.i.toNat + kmax ∧ s.indexed kmax t = raise (.memOutOfBounds (max s.i.toNat 4096)) s) := by
  by_cases h : s.i.toNat + kmax < 4096
  · exact .inl ⟨h, by simp [State.indexed, State.indexOk, State.ea, h]⟩
  · exact .inr ⟨by omega, by simp [State.indexed, State.indexOk, State.ea, h]⟩

/-- The registers FX55 stores, one by one (R155). -/
theorem State.regsUpTo_length (s : State) (x : Reg) : (s.regsUpTo x).length = x.val + 1 := by
  have := x.isLt
  simp only [Config.nRegs] at this
  simp only [State.regsUpTo, List.length_take, Vector.length_toList, Config.nRegs]
  omega

theorem State.regsUpTo_getElem (s : State) (x : Reg) (k : Nat) (h : k < (s.regsUpTo x).length) :
    (s.regsUpTo x)[k] = s.v[k]'(by rw [State.regsUpTo_length] at h; exact Nat.lt_of_lt_of_le h x.isLt) := by
  simp [State.regsUpTo]

/-- What FX65's loop leaves in each register (R156). -/
theorem loadRegs_getElem (m : Memory) (base : Nat) (v : Vector Byte Config.nRegs) : ∀ (n k : Nat)
    (h : k < Config.nRegs), (loadRegs m base n v)[k] = if k < n then m.read (base + k) else v[k] := by
  intro n
  induction n with
  | zero => intro k h; simp [loadRegs]
  | succ n ih =>
    intro k h
    simp only [loadRegs, Vector.getElem_setIfInBounds, ih k h]
    by_cases hk : n = k
    · simp [hk]
    · have : (k < n + 1) = (k < n) := by simp only [eq_iff_iff]; omega
      simp [hk, this]

/-! ### Keys -/

/-- The key a register names, and when it names none (R180). -/
theorem keyOf_cases (b : Byte) :
    (16 ≤ b.toNat ∧ keyOf b = none) ∨ ∃ k : Key, k.val = b.toNat ∧ keyOf b = some k := by
  unfold keyOf
  split
  · rename_i h; exact .inr ⟨_, rfl, rfl⟩
  · rename_i h; exact .inl ⟨by simpa using h, rfl⟩

/-- The lowest pressed key, and when there is none (R182). -/
theorem State.lowestKey_cases (s : State) :
    ((∀ k : Key, s.keyDown k = false) ∧ s.lowestKey = none) ∨
    ∃ k : Key, s.keyDown k = true ∧ (∀ j : Key, s.keyDown j = true → k ≤ j) ∧ s.lowestKey = some k.val := by
  cases h : s.lowestKey with
  | none =>
    refine .inl ⟨fun k => ?_, rfl⟩
    rw [State.lowestKey, List.findIdx?_eq_none_iff] at h
    simpa [State.keyDown] using h s.key[k.val] (by simp)
  | some n =>
    rw [State.lowestKey, List.findIdx?_eq_some_iff_getElem] at h
    obtain ⟨hn, h1, h2⟩ := h
    have hn' : n < Config.nKeys := by simpa using hn
    refine .inr ⟨⟨n, hn'⟩, by simpa [State.keyDown] using h1, fun j hj => ?_, rfl⟩
    by_contra hlt
    have hjn : j.val < n := by simpa [Fin.le_def] using hlt
    have := h2 j.val hjn
    simp [State.keyDown] at hj
    simp [hj] at this

/-! ### The display -/

/-- What a cell holds after a cell is written. -/
theorem Screen.cell_setCell (f : Screen) (px qx : Fin Config.dispW) (py qy : Fin Config.dispH) (b : Bool) :
    (f.setCell px py b).cell qx qy = if qx = px ∧ qy = py then b else f.cell qx qy := by
  simp only [Screen.cell, Screen.setCell, Vector.getElem_set]
  by_cases hy : py.val = qy.val
  · have hy' : qy = py := Fin.ext hy.symm
    subst hy'
    by_cases hx : px.val = qx.val
    · have hx' : qx = px := Fin.ext hx.symm
      simp [hx']
    · have hx' : qx ≠ px := fun h => hx (congrArg Fin.val h.symm)
      simp [hx, hx']
  · have hy' : qy ≠ py := fun h => hy (congrArg Fin.val h.symm)
    simp [hy, hy']

/-- Every cell of a cleared display is off (R170). -/
theorem Screen.cell_blank (px : Fin Config.dispW) (py : Fin Config.dispH) : Screen.blank.cell px py = false := by
  simp [Screen.blank, Screen.cell]

/-- Displays with the same cells are equal. -/
theorem Screen.ext_of_cell {f g : Screen} (h : ∀ px py, f.cell px py = g.cell px py) : f = g := by
  apply Vector.ext
  intro y hy
  apply Vector.ext
  intro x hx
  exact h ⟨x, hx⟩ ⟨y, hy⟩

/-! ### The tick -/

/-- Everything a tick can do (R79). -/
theorem tick_cases (s : State) :
    (∃ r, s.fault = some r ∧ step s = .next s) ∨
    (s.fault = none ∧ s.fetch = none ∧ step s = .next (s.takeFault .fetchOutOfBounds s.pc)) ∨
    (∃ w, s.fault = none ∧ s.fetch = some w ∧ decode w = none ∧
      step s = .next (s.takeFault (.illegalInstruction w) s.pc)) ∨
    (∃ w i, s.fault = none ∧ s.fetch = some w ∧ decode w = some i ∧ step s = exec i s.afterFetch) := by
  unfold step tick
  cases hf : s.fault with
  | some r => exact .inl ⟨r, rfl, rfl⟩
  | none =>
    cases hw : s.fetch with
    | none => exact .inr (.inl ⟨rfl, rfl, rfl⟩)
    | some w =>
      cases hd : decode w with
      | none => exact .inr (.inr (.inl ⟨w, rfl, rfl, hd, by simp [hd]⟩))
      | some i => exact .inr (.inr (.inr ⟨w, i, rfl, rfl, hd, by simp [hd]⟩))

/-- The glyph address is exact: five times the whole byte (R153). -/
theorem toNat_glyphAddr (b : Byte) : (glyphAddr b).toNat = b.toNat * 5 := by
  have := b.isLt
  simp only [glyphAddr, Config.fontBase, Config.glyphH, BitVec.toNat_ofNat]
  omega

/-- When a fetch gives a word (R61). -/
theorem State.fetch_eq_some {s : State} {w : Word} : s.fetch = some w ↔
    s.pc.toNat + 1 < 4096 ∧ s.mem.read s.pc.toNat ++ s.mem.read (s.pc.toNat + 1) = w := by
  simp [State.fetch]

/-- When a fetch gives none (R61). -/
theorem State.fetch_eq_none {s : State} : s.fetch = none ↔ 4096 ≤ s.pc.toNat + 1 := by
  have h : s.pc.toNat + 1 < Config.memSize ↔ s.pc.toNat + 1 < 4096 := Iff.rfl
  simp only [State.fetch, h, ite_eq_right_iff, reduceCtorEq, imp_false, Nat.not_lt]

/-- Undoing the fetch's advance: the address of the instruction that runs after a fetch at `PC` is `PC` (R79). -/
theorem State.pc0_afterFetch (s : State) : s.afterFetch.pc0 = s.pc := by
  simp [State.pc0, State.afterFetch]

end Sys2Proof.Machine
end

