-- ==== Sys2Proof/Laws/PerInstr.lean ====
section
/-! SUPPORT. Per-instruction laws. Family EncodedFields: the word of an instruction matches the instruction's own row
of the decode table by mask and match, and the row reads its fields back (spec 30_encoding.md R72, R74). It is about
one row at a time; that decode finds this row and no other is for the provers. -/

namespace Sys2Proof.Laws.EncodedFields

/-- The row that stands at an instruction's place in the table. -/
def rowIndex : Instr → Nat
  | .cls => 0
  | .ret => 1
  | .jp _ => 2
  | .call _ => 3
  | .seImm _ _ => 4
  | .sneImm _ _ => 5
  | .seReg _ _ => 6
  | .ldImm _ _ => 7
  | .addImm _ _ => 8
  | .ldReg _ _ => 9
  | .orReg _ _ => 10
  | .andReg _ _ => 11
  | .xorReg _ _ => 12
  | .addReg _ _ => 13
  | .sub _ _ => 14
  | .shr _ _ => 15
  | .subn _ _ => 16
  | .shl _ _ => 17
  | .sneReg _ _ => 18
  | .ldI _ => 19
  | .jpV0 _ => 20
  | .rnd _ _ => 21
  | .drw _ _ _ => 22
  | .skp _ => 23
  | .sknp _ => 24
  | .ldVxDt _ => 25
  | .ldVxK _ => 26
  | .ldDtVx _ => 27
  | .ldStVx _ => 28
  | .addI _ => 29
  | .ldF _ => 30
  | .ldB _ => 31
  | .ldMemVx _ => 32
  | .ldVxMem _ => 33

/-- The instruction's word is on its row, and the row gives the instruction back. -/
def Statement (i : Instr) : Prop :=
  ∃ r, opcodeTable[rowIndex i]? = some r ∧ encode i &&& r.mask = r.code ∧ (i.wf = true → r.build (encode i) = i)

theorem cls : Statement .cls := ⟨_, rfl, by decide, fun _ => rfl⟩

theorem ret : Statement .ret := ⟨_, rfl, by decide, fun _ => rfl⟩

theorem jp (nnn : BitVec 12) : Statement (.jp nnn) := ⟨_, rfl, formatA_mask _ _, fun _ => congrArg Instr.jp (nnnField_formatA _ _)⟩

theorem call (nnn : BitVec 12) : Statement (.call nnn) := ⟨_, rfl, formatA_mask _ _, fun _ => congrArg Instr.call (nnnField_formatA _ _)⟩

theorem seImm (x : Reg) (nn : Byte) : Statement (.seImm x nn) := ⟨_, rfl, formatXK_mask _ _ _, fun _ => congrArg₂ Instr.seImm (xField_formatXK _ _ _) (nnField_formatXK _ _ _)⟩

theorem sneImm (x : Reg) (nn : Byte) : Statement (.sneImm x nn) := ⟨_, rfl, formatXK_mask _ _ _, fun _ => congrArg₂ Instr.sneImm (xField_formatXK _ _ _) (nnField_formatXK _ _ _)⟩

theorem seReg (x : Reg) (y : Reg) : Statement (.seReg x y) := ⟨_, rfl, formatXY_mask _ _ _ _, fun _ => congrArg₂ Instr.seReg (xField_formatXY _ _ _ _) (yField_formatXY _ _ _ _)⟩

theorem ldImm (x : Reg) (nn : Byte) : Statement (.ldImm x nn) := ⟨_, rfl, formatXK_mask _ _ _, fun _ => congrArg₂ Instr.ldImm (xField_formatXK _ _ _) (nnField_formatXK _ _ _)⟩

theorem addImm (x : Reg) (nn : Byte) : Statement (.addImm x nn) := ⟨_, rfl, formatXK_mask _ _ _, fun _ => congrArg₂ Instr.addImm (xField_formatXK _ _ _) (nnField_formatXK _ _ _)⟩

theorem ldReg (x : Reg) (y : Reg) : Statement (.ldReg x y) := ⟨_, rfl, formatXY_mask _ _ _ _, fun _ => congrArg₂ Instr.ldReg (xField_formatXY _ _ _ _) (yField_formatXY _ _ _ _)⟩

theorem orReg (x : Reg) (y : Reg) : Statement (.orReg x y) := ⟨_, rfl, formatXY_mask _ _ _ _, fun _ => congrArg₂ Instr.orReg (xField_formatXY _ _ _ _) (yField_formatXY _ _ _ _)⟩

theorem andReg (x : Reg) (y : Reg) : Statement (.andReg x y) := ⟨_, rfl, formatXY_mask _ _ _ _, fun _ => congrArg₂ Instr.andReg (xField_formatXY _ _ _ _) (yField_formatXY _ _ _ _)⟩

theorem xorReg (x : Reg) (y : Reg) : Statement (.xorReg x y) := ⟨_, rfl, formatXY_mask _ _ _ _, fun _ => congrArg₂ Instr.xorReg (xField_formatXY _ _ _ _) (yField_formatXY _ _ _ _)⟩

theorem addReg (x : Reg) (y : Reg) : Statement (.addReg x y) := ⟨_, rfl, formatXY_mask _ _ _ _, fun _ => congrArg₂ Instr.addReg (xField_formatXY _ _ _ _) (yField_formatXY _ _ _ _)⟩

theorem sub (x : Reg) (y : Reg) : Statement (.sub x y) := ⟨_, rfl, formatXY_mask _ _ _ _, fun _ => congrArg₂ Instr.sub (xField_formatXY _ _ _ _) (yField_formatXY _ _ _ _)⟩

theorem shr (x : Reg) (y : Reg) : Statement (.shr x y) := ⟨_, rfl, formatXY_mask _ _ _ _, fun _ => congrArg₂ Instr.shr (xField_formatXY _ _ _ _) (yField_formatXY _ _ _ _)⟩

theorem subn (x : Reg) (y : Reg) : Statement (.subn x y) := ⟨_, rfl, formatXY_mask _ _ _ _, fun _ => congrArg₂ Instr.subn (xField_formatXY _ _ _ _) (yField_formatXY _ _ _ _)⟩

theorem shl (x : Reg) (y : Reg) : Statement (.shl x y) := ⟨_, rfl, formatXY_mask _ _ _ _, fun _ => congrArg₂ Instr.shl (xField_formatXY _ _ _ _) (yField_formatXY _ _ _ _)⟩

theorem sneReg (x : Reg) (y : Reg) : Statement (.sneReg x y) := ⟨_, rfl, formatXY_mask _ _ _ _, fun _ => congrArg₂ Instr.sneReg (xField_formatXY _ _ _ _) (yField_formatXY _ _ _ _)⟩

theorem ldI (nnn : BitVec 12) : Statement (.ldI nnn) := ⟨_, rfl, formatA_mask _ _, fun _ => congrArg Instr.ldI (nnnField_formatA _ _)⟩

theorem jpV0 (nnn : BitVec 12) : Statement (.jpV0 nnn) := ⟨_, rfl, formatA_mask _ _, fun _ => congrArg Instr.jpV0 (nnnField_formatA _ _)⟩

theorem rnd (x : Reg) (nn : Byte) : Statement (.rnd x nn) := ⟨_, rfl, formatXK_mask _ _ _, fun _ => congrArg₂ Instr.rnd (xField_formatXK _ _ _) (nnField_formatXK _ _ _)⟩

theorem drw (x : Reg) (y : Reg) (n : Nat) : Statement (.drw x y n) := by
  refine ⟨_, rfl, formatXYN_mask _ _ _ _, fun h => ?_⟩
  have hn : n < 16 := of_decide_eq_true h
  show Instr.drw (xField (formatXY _ x y _)) (yField (formatXY _ x y _)) (nField (formatXY _ x y _)).toNat = _
  rw [xField_formatXY, yField_formatXY, nField_formatXY, BitVec.toNat_ofNat, Nat.mod_eq_of_lt hn]

theorem skp (x : Reg) : Statement (.skp x) := ⟨_, rfl, formatXS_mask _ _ _, fun _ => congrArg Instr.skp (xField_formatXS _ _ _)⟩

theorem sknp (x : Reg) : Statement (.sknp x) := ⟨_, rfl, formatXS_mask _ _ _, fun _ => congrArg Instr.sknp (xField_formatXS _ _ _)⟩

theorem ldVxDt (x : Reg) : Statement (.ldVxDt x) := ⟨_, rfl, formatXS_mask _ _ _, fun _ => congrArg Instr.ldVxDt (xField_formatXS _ _ _)⟩

theorem ldVxK (x : Reg) : Statement (.ldVxK x) := ⟨_, rfl, formatXS_mask _ _ _, fun _ => congrArg Instr.ldVxK (xField_formatXS _ _ _)⟩

theorem ldDtVx (x : Reg) : Statement (.ldDtVx x) := ⟨_, rfl, formatXS_mask _ _ _, fun _ => congrArg Instr.ldDtVx (xField_formatXS _ _ _)⟩

theorem ldStVx (x : Reg) : Statement (.ldStVx x) := ⟨_, rfl, formatXS_mask _ _ _, fun _ => congrArg Instr.ldStVx (xField_formatXS _ _ _)⟩

theorem addI (x : Reg) : Statement (.addI x) := ⟨_, rfl, formatXS_mask _ _ _, fun _ => congrArg Instr.addI (xField_formatXS _ _ _)⟩

theorem ldF (x : Reg) : Statement (.ldF x) := ⟨_, rfl, formatXS_mask _ _ _, fun _ => congrArg Instr.ldF (xField_formatXS _ _ _)⟩

theorem ldB (x : Reg) : Statement (.ldB x) := ⟨_, rfl, formatXS_mask _ _ _, fun _ => congrArg Instr.ldB (xField_formatXS _ _ _)⟩

theorem ldMemVx (x : Reg) : Statement (.ldMemVx x) := ⟨_, rfl, formatXS_mask _ _ _, fun _ => congrArg Instr.ldMemVx (xField_formatXS _ _ _)⟩

theorem ldVxMem (x : Reg) : Statement (.ldVxMem x) := ⟨_, rfl, formatXS_mask _ _ _, fun _ => congrArg Instr.ldVxMem (xField_formatXS _ _ _)⟩

end Sys2Proof.Laws.EncodedFields
end

