-- ==== Sys2Proof/Laws/Screen.lean ====
section
/-! SUPPORT. The laws of drawing: which cells a sprite covers, and what a pixel, a row and a whole sprite leave of the
display and of the collision flag (spec 43_display.md R171). No cell is visited twice, so each flips at most once. -/

namespace Sys2Proof.Machine

/-- Column `c` of sprite row `r`, whose byte is `b`, sets its bit and falls on the cell. -/
def ColumnCovers (cx cy : Nat) (b : Byte) (r c : Nat) (px : Fin Config.dispW) (py : Fin Config.dispH) : Prop :=
  spriteBit b c = true ∧ px = wrapX (cx + c) ∧ py = wrapY (cy + r)

/-- Some set bit of the `n` rows at `base` falls on the cell. -/
def RowsCover (m : Memory) (base cx cy n : Nat) (px : Fin Config.dispW) (py : Fin Config.dispH) : Prop :=
  ∃ r < n, ∃ c < 8, ColumnCovers cx cy (m.read (base + r)) r c px py

/-- One pixel: the cell it covers flips, and a collision is a covered cell that was on. -/
theorem drawPixel_spec (cx cy : Nat) (b : Byte) (r : Nat) (p : Screen × Bool) (c : Nat) :
    (∀ px py, (drawPixel cx cy b r p c).1.cell px py = true ↔
      (p.1.cell px py = true ↔ ¬ ColumnCovers cx cy b r c px py)) ∧
    ((drawPixel cx cy b r p c).2 = true ↔
      p.2 = true ∨ ∃ px py, ColumnCovers cx cy b r c px py ∧ p.1.cell px py = true) := by
  unfold drawPixel ColumnCovers
  by_cases hb : spriteBit b c = true
  · simp only [hb, if_true, Screen.cell_setCell, true_and, Bool.or_eq_true]
    refine ⟨fun px py => ?_, ?_, ?_⟩
    · by_cases hq : px = wrapX (cx + c) ∧ py = wrapY (cy + r)
      · obtain ⟨rfl, rfl⟩ := hq
        cases p.1.cell (wrapX (cx + c)) (wrapY (cy + r)) <;> simp
      · simp [hq]
    · rintro (h | h)
      · exact .inl h
      · exact .inr ⟨_, _, ⟨rfl, rfl⟩, h⟩
    · rintro (h | ⟨_, _, ⟨rfl, rfl⟩, h⟩)
      · exact .inl h
      · exact .inr h
  · simp [hb]

/-- Eight columns in a row of 64 fall on different cells. -/
theorem wrapX_inj {cx a b : Nat} (ha : a < 8) (hb : b < 8) (h : wrapX (cx + a) = wrapX (cx + b)) : a = b := by
  have := congrArg Fin.val h
  simp only [wrapX, Config.dispW] at this
  omega

/-- Sixteen rows of 32 fall on different cells. -/
theorem wrapY_inj {cy a b : Nat} (ha : a < 16) (hb : b < 16) (h : wrapY (cy + a) = wrapY (cy + b)) : a = b := by
  have := congrArg Fin.val h
  simp only [wrapY, Config.dispH] at this
  omega

/-- Two disjoint flips are one flip of both. -/
theorem flip_flip {A B C : Prop} (h : ¬ (A ∧ B)) : ((C ↔ ¬ A) ↔ ¬ B) ↔ (C ↔ ¬ (A ∨ B)) := by tauto

/-- The first `k` columns of a row. -/
theorem drawColumns_spec (cx cy : Nat) (b : Byte) (r : Nat) (p : Screen × Bool) : ∀ k, k ≤ 8 →
    (∀ px py, ((List.range k).foldl (drawPixel cx cy b r) p).1.cell px py = true ↔
      (p.1.cell px py = true ↔ ¬ ∃ c < k, ColumnCovers cx cy b r c px py)) ∧
    (((List.range k).foldl (drawPixel cx cy b r) p).2 = true ↔
      p.2 = true ∨ ∃ c < k, ∃ px py, ColumnCovers cx cy b r c px py ∧ p.1.cell px py = true) := by
  intro k
  induction k with
  | zero => intro _; simp
  | succ k ih =>
    intro hk
    rw [List.range_succ, List.foldl_append]
    obtain ⟨h1, h2⟩ := ih (by omega)
    generalize (List.range k).foldl (drawPixel cx cy b r) p = q at *
    simp only [List.foldl_cons, List.foldl_nil]
    obtain ⟨g1, g2⟩ := drawPixel_spec cx cy b r q k
    have apart : ∀ px py c, c < k → ColumnCovers cx cy b r c px py → ¬ ColumnCovers cx cy b r k px py := by
      intro px py c hc h h'
      have := wrapX_inj (by omega) (by omega) (h.2.1.symm.trans h'.2.1)
      omega
    constructor
    · intro px py
      rw [g1, h1]
      have split : (∃ c < k + 1, ColumnCovers cx cy b r c px py) ↔
          (∃ c < k, ColumnCovers cx cy b r c px py) ∨ ColumnCovers cx cy b r k px py := by
        simp only [Nat.lt_succ_iff_lt_or_eq, or_and_right, exists_or, exists_eq_left]
      rw [split]
      exact flip_flip fun ⟨⟨c, hc, h⟩, h'⟩ => apart px py c hc h h'
    · rw [g2, h2]
      constructor
      · rintro ((h | ⟨c, hc, px, py, h, h'⟩) | ⟨px, py, h, h'⟩)
        · exact .inl h
        · exact .inr ⟨c, by omega, px, py, h, h'⟩
        · exact .inr ⟨k, by omega, px, py, h, ((h1 px py).1 h').2 fun ⟨c, hc, hc'⟩ => apart px py c hc hc' h⟩
      · rintro (h | ⟨c, hc, px, py, h, h'⟩)
        · exact .inl (.inl h)
        · rcases Nat.lt_succ_iff_lt_or_eq.1 hc with hlt | rfl
          · exact .inl (.inr ⟨c, hlt, px, py, h, h'⟩)
          · exact .inr ⟨px, py, h, (h1 px py).2 ⟨fun _ ⟨c', hc', hh⟩ => apart px py c' hc' hh h, fun _ => h'⟩⟩

/-- The rows of a sprite. -/
theorem drawSprite_spec (m : Memory) (base cx cy : Nat) (p : Screen × Bool) : ∀ n, n ≤ 16 →
    (∀ px py, (drawSprite m base cx cy n p).1.cell px py = true ↔
      (p.1.cell px py = true ↔ ¬ RowsCover m base cx cy n px py)) ∧
    ((drawSprite m base cx cy n p).2 = true ↔
      p.2 = true ∨ ∃ px py, RowsCover m base cx cy n px py ∧ p.1.cell px py = true) := by
  intro n
  induction n with
  | zero => intro _; simp [drawSprite, RowsCover]
  | succ n ih =>
    intro hn
    obtain ⟨h1, h2⟩ := ih (by omega)
    have next : drawSprite m base cx cy (n + 1) p =
        drawRow cx cy (m.read (base + n)) n (drawSprite m base cx cy n p) := by
      simp only [drawSprite, List.range_succ, List.foldl_append, List.foldl_cons, List.foldl_nil]
    rw [next]
    generalize drawSprite m base cx cy n p = q at *
    obtain ⟨g1, g2⟩ := drawColumns_spec cx cy (m.read (base + n)) n q 8 (by omega)
    have split : ∀ px py, RowsCover m base cx cy (n + 1) px py ↔
        RowsCover m base cx cy n px py ∨ ∃ c < 8, ColumnCovers cx cy (m.read (base + n)) n c px py := by
      intro px py
      simp only [RowsCover, Nat.lt_succ_iff_lt_or_eq, or_and_right, exists_or, exists_eq_left]
    have apart : ∀ px py, RowsCover m base cx cy n px py →
        ¬ ∃ c < 8, ColumnCovers cx cy (m.read (base + n)) n c px py := by
      rintro px py ⟨r, hr, c, _, h⟩ ⟨c', _, h'⟩
      have := wrapY_inj (by omega) (by omega) (h.2.2.symm.trans h'.2.2)
      omega
    constructor
    · intro px py
      refine (g1 px py).trans ?_
      rw [h1, split]
      exact flip_flip fun h => apart px py h.1 h.2
    · refine g2.trans ?_
      rw [h2]
      constructor
      · rintro ((h | ⟨px, py, h, h'⟩) | ⟨c, hc, px, py, h, h'⟩)
        · exact .inl h
        · exact .inr ⟨px, py, (split _ _).2 (.inl h), h'⟩
        · exact .inr ⟨px, py, (split _ _).2 (.inr ⟨c, hc, h⟩),
            ((h1 px py).1 h').2 fun hh => apart _ _ hh ⟨c, hc, h⟩⟩
      · rintro (h | ⟨px, py, h, h'⟩)
        · exact .inl (.inl h)
        · rcases (split _ _).1 h with h | ⟨c, hc, h⟩
          · exact .inl (.inr ⟨px, py, h, h'⟩)
          · exact .inr ⟨c, hc, px, py, h, (h1 px py).2 ⟨fun _ hh => apart _ _ hh ⟨c, hc, h⟩, fun _ => h'⟩⟩

end Sys2Proof.Machine
end

