-- ==== Sys2Proof/Tests/Slice0.lean ====
section
/-! SUPPORT. Tests: the words and results of spec/95_test_vectors.md (S, CF, AL, IM, DS, KT, FH are its ids) and of
the examples in the rules, each on one operation, and a witness for the hypotheses of every obligation that has any. -/

namespace Sys2Proof.Tests

open Sys2Proof.Machine

/-! ### Helpers -/

/-- A reset machine with some registers set. -/
def regs (l : List (Reg × Byte)) : State := l.foldl (fun s p => s.setV p.1 p.2) State.reset

/-- `s` with the bytes `bs` at address `a`. -/
def withBytes (a : Nat) (bs : List Byte) (s : State) : State := { s with mem := s.mem.writeBytes a bs }

/-- `s` with key `k` pressed. -/
def press (k : Key) (s : State) : State := { s with key := s.key.set k.val true }

/-- One step of `s` with the word `w` placed at its `PC`. -/
def stepOn (w : Nat) (s : State) : Option State :=
  match step (s.withFetchWord 16 w) with
  | .next t => some t
  | .fault _ => none
  | .refused _ => none

/-- Something of the state after that step. -/
def got {α : Type} (w : Nat) (s : State) (f : State → α) : Option α := (stepOn w s).map f

/-- Something of the outcome of a host operation. -/
def hostGot {α : Type} (op : HostOp) (s : State) (f : State → Reply → α) : Option α :=
  match perform op s with
  | .next (t, r) => some (f t r)
  | .fault _ => none
  | .refused _ => none

/-! ### Well-formedness -/

/-- The row count of DXYN must fit its field (R73). -/
theorem test_wf_refuses_drw_16 : (Instr.drw 0 1 16).wf = false := by decide

theorem test_wf_accepts_drw_15 : (Instr.drw 0 1 15).wf = true := by decide

/-! ### Decoding: one word for each constructor, from the patterns of R74 and the vectors of 95 section 2.1 -/

/-- 0000 0000 1110 0000 -/
theorem test_decode_cls : decodeTableWord 16 0x00E0 = some (.cls) := by decide

/-- 0000 0000 1110 1110 -/
theorem test_decode_ret : decodeTableWord 16 0x00EE = some (.ret) := by decide

/-- 0001 1111 1111 1111 -/
theorem test_decode_jp : decodeTableWord 16 0x1FFF = some (.jp 0xFFF) := by decide

/-- 0010 0011 0100 0101 -/
theorem test_decode_call : decodeTableWord 16 0x2345 = some (.call 0x345) := by decide

/-- 0011 0011 0100 0010 -/
theorem test_decode_seImm : decodeTableWord 16 0x3342 = some (.seImm 3 0x42) := by decide

/-- 0100 0011 0100 0010 -/
theorem test_decode_sneImm : decodeTableWord 16 0x4342 = some (.sneImm 3 0x42) := by decide

/-- 0101 0001 0010 0000 -/
theorem test_decode_seReg : decodeTableWord 16 0x5120 = some (.seReg 1 2) := by decide

/-- 0110 1010 0100 0010 -/
theorem test_decode_ldImm : decodeTableWord 16 0x6A42 = some (.ldImm 0xA 0x42) := by decide

/-- 0111 0001 1111 1111 -/
theorem test_decode_addImm : decodeTableWord 16 0x71FF = some (.addImm 1 0xFF) := by decide

/-- 1000 0001 0010 0000 -/
theorem test_decode_ldReg : decodeTableWord 16 0x8120 = some (.ldReg 1 2) := by decide

/-- 1000 1111 0010 0001 -/
theorem test_decode_orReg : decodeTableWord 16 0x8F21 = some (.orReg 15 2) := by decide

/-- 1000 0001 0010 0010 -/
theorem test_decode_andReg : decodeTableWord 16 0x8122 = some (.andReg 1 2) := by decide

/-- 1000 0001 0010 0011 -/
theorem test_decode_xorReg : decodeTableWord 16 0x8123 = some (.xorReg 1 2) := by decide

/-- 1000 0001 1111 0100 -/
theorem test_decode_addReg : decodeTableWord 16 0x81F4 = some (.addReg 1 15) := by decide

/-- 1000 0001 0010 0101 -/
theorem test_decode_sub : decodeTableWord 16 0x8125 = some (.sub 1 2) := by decide

/-- 1000 1111 1111 0110 -/
theorem test_decode_shr : decodeTableWord 16 0x8FF6 = some (.shr 15 15) := by decide

/-- 1000 0001 0010 0111 -/
theorem test_decode_subn : decodeTableWord 16 0x8127 = some (.subn 1 2) := by decide

/-- 1000 0000 1010 1110 -/
theorem test_decode_shl : decodeTableWord 16 0x80AE = some (.shl 0 10) := by decide

/-- 1001 0001 0010 0000 -/
theorem test_decode_sneReg : decodeTableWord 16 0x9120 = some (.sneReg 1 2) := by decide

/-- 1010 0010 1111 0000 -/
theorem test_decode_ldI : decodeTableWord 16 0xA2F0 = some (.ldI 0x2F0) := by decide

/-- 1011 0011 0000 0000 -/
theorem test_decode_jpV0 : decodeTableWord 16 0xB300 = some (.jpV0 0x300) := by decide

/-- 1100 0011 0000 1111 -/
theorem test_decode_rnd : decodeTableWord 16 0xC30F = some (.rnd 3 0x0F) := by decide

/-- 1101 0001 0010 0000 -/
theorem test_decode_drw : decodeTableWord 16 0xD120 = some (.drw 1 2 0) := by decide

/-- 1110 0001 1001 1110 -/
theorem test_decode_skp : decodeTableWord 16 0xE19E = some (.skp 1) := by decide

/-- 1110 0001 1010 0001 -/
theorem test_decode_sknp : decodeTableWord 16 0xE1A1 = some (.sknp 1) := by decide

/-- 1111 0001 0000 0111 -/
theorem test_decode_ldVxDt : decodeTableWord 16 0xF107 = some (.ldVxDt 1) := by decide

/-- 1111 0011 0000 1010 -/
theorem test_decode_ldVxK : decodeTableWord 16 0xF30A = some (.ldVxK 3) := by decide

/-- 1111 0001 0001 0101 -/
theorem test_decode_ldDtVx : decodeTableWord 16 0xF115 = some (.ldDtVx 1) := by decide

/-- 1111 0001 0001 1000 -/
theorem test_decode_ldStVx : decodeTableWord 16 0xF118 = some (.ldStVx 1) := by decide

/-- 1111 0010 0001 1110 -/
theorem test_decode_addI : decodeTableWord 16 0xF21E = some (.addI 2) := by decide

/-- 1111 0100 0010 1001 -/
theorem test_decode_ldF : decodeTableWord 16 0xF429 = some (.ldF 4) := by decide

/-- 1111 0101 0011 0011 -/
theorem test_decode_ldB : decodeTableWord 16 0xF533 = some (.ldB 5) := by decide

/-- 1111 0010 0101 0101 -/
theorem test_decode_ldMemVx : decodeTableWord 16 0xF255 = some (.ldMemVx 2) := by decide

/-- 1111 0010 0110 0101 -/
theorem test_decode_ldVxMem : decodeTableWord 16 0xF265 = some (.ldVxMem 2) := by decide

/-- Illegal words of 95 section 2.1. -/
theorem test_decode_illegal :
    [0x0000, 0x00E1, 0x0123, 0x5121, 0x8128, 0x812C].map decode = List.replicate 6 none ∧
    [0x812F, 0x9121, 0xE19F, 0xF175, 0xF130, 0xF1FF].map decode = List.replicate 6 none := by
  constructor <;> rfl

/-- The high byte comes first (R60), and a lone byte is not a word. -/
theorem test_decodeBytes :
    decodeBytes [0xA2, 0xF0, 0x00] = .ok (.ldI 0x2F0, [0x00]) ∧ decodeBytes [0xA2] = .error .truncated := by decide

/-- Mnemonics (R90). -/
theorem test_mnemonicForm : mnemonicForm 0xF265 = some "LD Vx, [I]" ∧ mnemonicForm 0x8128 = none := by decide

/-! ### Control flow -/

/-- CF1: the slot keeps its value. -/
theorem test_ret_CF1 :
    got 0x00EE { State.reset with sp := 1, pc := 0x212, stk := State.reset.stk.set 0 0x206 }
      (fun t => (t.sp, t.pc, t.stk[0])) = some (0, 0x206, 0x206) := by decide

/-- CF2: the empty stack. -/
theorem test_ret_CF2 :
    got 0x00EE State.reset (fun t => (t.pc, t.sp, t.fault, t.started)) =
      some (0x200, 0, some ⟨.stackUnderflow, 0x200⟩, true) := by decide

/-- CF3. -/
theorem test_jp_CF3 : got 0x1234 State.reset (fun t => t.pc) = some 0x234 := by decide

/-- CF4: an odd target. -/
theorem test_jp_CF4 : got 0x1201 State.reset (fun t => t.pc) = some 0x201 := by decide

/-- CF7: the sixteenth call. -/
theorem test_call_CF7 :
    got 0x2300 { State.reset with sp := 15 } (fun t => (t.stk[15], t.sp, t.pc)) = some (0x202, 16, 0x300) := by decide

/-- CF8: the seventeenth call. -/
theorem test_call_CF8 :
    got 0x2300 { State.reset with sp := 16 } (fun t => (t.stk, t.sp, t.pc, t.fault)) =
      some (State.reset.stk, 16, 0x200, some ⟨.stackOverflow, 0x200⟩) := by decide

/-- CF9. -/
theorem test_seImm_CF9 : got 0x3342 (regs [(3, 0x42)]) (fun t => t.pc) = some 0x204 := by decide

/-- CF21: a skip past the end of memory does not fault. -/
theorem test_seImm_CF21 :
    got 0x3100 { State.reset with pc := 0xFFC } (fun t => (t.pc, t.fault)) = some (0x1000, none) := by decide

/-- CF11. -/
theorem test_sneImm_CF11 : got 0x4342 (regs [(3, 0x41)]) (fun t => t.pc) = some 0x204 := by decide

/-- CF12. -/
theorem test_sneImm_CF12 : got 0x4342 (regs [(3, 0x42)]) (fun t => t.pc) = some 0x202 := by decide

/-- CF13. -/
theorem test_seReg_CF13 : got 0x5120 (regs [(1, 7), (2, 7)]) (fun t => t.pc) = some 0x204 := by decide

/-- CF13 with `V[2] = 8` (R106). -/
theorem test_seReg_differ : got 0x5120 (regs [(1, 7), (2, 8)]) (fun t => t.pc) = some 0x202 := by decide

/-- CF15. -/
theorem test_sneReg_CF15 : got 0x9120 (regs [(1, 7), (2, 8)]) (fun t => t.pc) = some 0x204 := by decide

/-- CF16. -/
theorem test_sneReg_CF16 : got 0x9110 (regs [(1, 7)]) (fun t => t.pc) = some 0x202 := by decide

/-- CF17: V0, not V3. -/
theorem test_jpV0_CF17 : got 0xB300 (regs [(0, 0x10), (3, 0x77)]) (fun t => t.pc) = some 0x310 := by decide

/-- CF18: not reduced to 12 bits. -/
theorem test_jpV0_CF18 : got 0xBFFF (regs [(0, 0xFF)]) (fun t => (t.pc, t.fault)) = some (0x10FE, none) := by decide

/-! ### Registers and ALU -/

/-- AL1. -/
theorem test_ldImm_AL1 : got 0x6A42 State.reset (fun t => t.getV 0xA) = some 0x42 := by decide

/-- S3: no flag. -/
theorem test_addImm_S3 :
    got 0x7101 (regs [(1, 0xFF), (15, 0x00)]) (fun t => (t.getV 1, t.getV VF)) = some (0x00, 0x00) := by decide

/-- AL3: VF kept. -/
theorem test_addImm_AL3 :
    got 0x71FF (regs [(1, 0x00), (15, 0x07)]) (fun t => (t.getV 1, t.getV VF)) = some (0xFF, 0x07) := by decide

/-- AL5. -/
theorem test_ldReg_AL5 : got 0x8120 (regs [(2, 0x55)]) (fun t => (t.getV 1, t.getV 2)) = some (0x55, 0x55) := by decide

/-- AL6: VF kept. -/
theorem test_or_AL6 :
    got 0x8121 (regs [(1, 0xF0), (2, 0x0F), (15, 0x07)]) (fun t => (t.getV 1, t.getV VF)) = some (0xFF, 0x07) :=
      by decide

/-- AL8: VF kept. -/
theorem test_and_AL8 :
    got 0x8122 (regs [(1, 0xF0), (2, 0x3C), (15, 0x07)]) (fun t => (t.getV 1, t.getV VF)) = some (0x30, 0x07) :=
      by decide

/-- AL9: VF kept. -/
theorem test_xor_AL9 :
    got 0x8123 (regs [(1, 0xF0), (2, 0x3C), (15, 0x07)]) (fun t => (t.getV 1, t.getV VF)) = some (0xCC, 0x07) :=
      by decide

/-- S4, AL11. -/
theorem test_add_S4 :
    got 0x8124 (regs [(1, 0xFF), (2, 0x01)]) (fun t => (t.getV 1, t.getV VF)) = some (0x00, 1) := by decide

/-- AL15: the carry is written last. -/
theorem test_add_AL15 : got 0x8F14 (regs [(15, 0x10), (1, 0x20)]) (fun t => t.getV VF) = some 0 := by decide

/-- S5: borrow. -/
theorem test_sub_S5 :
    got 0x8125 (regs [(1, 0x01), (2, 0x02)]) (fun t => (t.getV 1, t.getV VF)) = some (0xFF, 0) := by decide

/-- AL17: equal operands do not borrow. -/
theorem test_sub_AL17 :
    got 0x8125 (regs [(1, 0x05), (2, 0x05)]) (fun t => (t.getV 1, t.getV VF)) = some (0x00, 1) := by decide

/-- AL25: Vy not used. -/
theorem test_shr_AL25 :
    got 0x8126 (regs [(1, 0x05), (2, 0xAA)]) (fun t => (t.getV 1, t.getV VF)) = some (0x02, 1) := by decide

/-- AL27: the flag is written last. -/
theorem test_shr_AL27 : got 0x8F06 (regs [(15, 0x02)]) (fun t => t.getV VF) = some 0 := by decide

/-- AL28. -/
theorem test_subn_AL28 :
    got 0x8127 (regs [(1, 0x05), (2, 0x03)]) (fun t => (t.getV 1, t.getV VF)) = some (0xFE, 0) := by decide

/-- AL31: the flag is written last. -/
theorem test_subn_AL31 : got 0x8F17 (regs [(15, 0x03), (1, 0x05)]) (fun t => t.getV VF) = some 1 := by decide

/-- AL34: y = F not read. -/
theorem test_shl_AL34 : got 0x81FE (regs [(1, 0xFF)]) (fun t => (t.getV 1, t.getV VF)) = some (0xFE, 1) := by decide

/-- AL36: the flag is written last. -/
theorem test_shl_AL36 : got 0x8F0E (regs [(15, 0x40)]) (fun t => t.getV VF) = some 0 := by decide

/-- AL38: a zero mask, whatever the byte. -/
theorem test_rnd_AL38 : got 0xC300 (regs [(3, 0x55)]) (fun t => t.getV 3) = some 0 := by
  show some (Config.rnd 0 &&& 0x00) = some 0
  simp

/-- AL39: the whole of the byte. -/
theorem test_rnd_AL39 : got 0xC3FF State.reset (fun t => t.getV 3) = some (Config.rnd 0 &&& 0xFF) := by rfl

/-! ### Index register and memory -/

/-- IM1. -/
theorem test_ldI_IM1 : got 0xA2F0 State.reset (fun t => t.i) = some 0x2F0 := by decide

/-- IM3: 16-bit wraparound, no flag. -/
theorem test_addI_IM3 :
    got 0xF21E { regs [(2, 0x01)] with i := 0xFFFF } (fun t => (t.i, t.getV VF)) = some (0x0000, 0) := by decide

/-- IM4: no 12-bit wrap. -/
theorem test_addI_IM4 : got 0xF21E { regs [(2, 0x01)] with i := 0x0FFF } (fun t => t.i) = some 0x1000 := by decide

/-- IM5. -/
theorem test_ldF_IM5 : got 0xF429 (regs [(4, 0x0A)]) (fun t => t.i) = some 0x032 := by decide

/-- IM8: no mask. -/
theorem test_ldF_IM8 : got 0xF429 (regs [(4, 0xFF)]) (fun t => t.i) = some 0x4FB := by decide

/-- S9. -/
theorem test_ldB_S9 :
    got 0xF533 { regs [(5, 157)] with i := 0x300 }
      (fun t => (t.mem.read 0x300, t.mem.read 0x301, t.mem.read 0x302)) = some (1, 5, 7) := by decide

/-- IM13: all or nothing. -/
theorem test_ldB_IM13 :
    got 0xF533 { regs [(5, 100)] with i := 0xFFE } (fun t => (t.mem.read 0xFFE, t.pc, t.fault)) =
      some (0, 0x200, some ⟨.memOutOfBounds 0x1000, 0x200⟩) := by decide

/-- IM15. -/
theorem test_ldMemVx_IM15 :
    got 0xF255 { regs [(0, 1), (1, 2), (2, 3)] with i := 0x300 }
      (fun t => (t.mem.read 0x300, t.mem.read 0x301, t.mem.read 0x302, t.i)) = some (1, 2, 3, 0x300) := by decide

/-- IM17: all or nothing. -/
theorem test_ldMemVx_IM17 :
    got 0xF155 { regs [(0, 0xAB), (1, 0xCD)] with i := 0xFFF } (fun t => (t.mem.read 0xFFF, t.fault)) =
      some (0, some ⟨.memOutOfBounds 0x1000, 0x200⟩) := by decide

/-- IM19: registers above x are kept. -/
theorem test_ldVxMem_IM19 :
    got 0xF265 (withBytes 0x300 [1, 5, 7] { regs [(3, 0x33)] with i := 0x300 })
      (fun t => (t.getV 0, t.getV 1, t.getV 2, t.getV 3, t.i)) = some (1, 5, 7, 0x33, 0x300) := by decide

/-- IM21: the font (D2). -/
theorem test_ldVxMem_IM21 :
    got 0xF465 State.reset (fun t => [t.getV 0, t.getV 1, t.getV 2, t.getV 3, t.getV 4]) =
      some [0xF0, 0x90, 0x90, 0x90, 0xF0] := by decide

/-! ### Display -/

/-- DS1. -/
theorem test_cls_DS1 :
    got 0x00E0 { State.reset with fb := State.reset.fb.setCell 3 4 true } (fun t => t.fb.cell 3 4) = some false :=
      by decide

/-- DS2: row 0 and row 1 of glyph 0 at column 62. -/
theorem test_drw_DS2 :
    got 0xD015 (regs [(0, 62)])
      (fun t => (t.fb[0].toList.take 3, t.fb[0].toList.drop 61, t.fb[1].toList.take 3, t.fb[1].toList.drop 61, t.getV VF)) =
      some ([true, true, false], [false, true, true], [false, true, false], [false, true, false], 0) := by decide

/-- DS4: collision. -/
theorem test_drw_DS4 :
    got 0xD011 (withBytes 0x300 [0x80]
      { State.reset with i := 0x300, fb := State.reset.fb.setCell 0 0 true })
      (fun t => (t.fb.cell 0 0, t.getV VF)) = some (false, 1) := by decide

/-! ### Keys and timers -/

/-- KT1. -/
theorem test_skp_KT1 : got 0xE29E (press 5 (regs [(2, 5)])) (fun t => t.pc) = some 0x204 := by decide

/-- KT3. -/
theorem test_skp_KT3 :
    got 0xE29E (regs [(2, 0x10)]) (fun t => (t.pc, t.fault)) = some (0x200, some ⟨.keyIndexOutOfRange 0x10, 0x200⟩) :=
      by decide

/-- KT4. -/
theorem test_sknp_KT4 : got 0xE2A1 (regs [(2, 5)]) (fun t => t.pc) = some 0x204 := by decide

/-- KT5. -/
theorem test_sknp_KT5 : got 0xE2A1 (press 5 (regs [(2, 5)])) (fun t => t.pc) = some 0x202 := by decide

/-- KT7: no key. -/
theorem test_ldVxK_KT7 : got 0xF30A (regs [(3, 0x77)]) (fun t => (t.pc, t.getV 3)) = some (0x200, 0x77) := by decide

/-- KT8: the lowest key. -/
theorem test_ldVxK_KT8 :
    got 0xF30A (press 9 (press 4 State.reset)) (fun t => (t.pc, t.getV 3)) = some (0x202, 4) := by decide

/-- KT10. -/
theorem test_ldVxDt_KT10 : got 0xF107 { State.reset with dt := 0x3C } (fun t => t.getV 1) = some 0x3C := by decide

/-- KT11. -/
theorem test_ldDtVx_KT11 : got 0xF115 (regs [(1, 0x3C)]) (fun t => t.dt) = some 0x3C := by decide

/-- KT12. -/
theorem test_ldStVx_KT12 : got 0xF118 (regs [(1, 0x05)]) (fun t => (t.st, t.soundOn)) = some (0x05, true) := by decide

/-! ### Fetch, faults and host operations -/

/-- FH1: the last word of memory. -/
theorem test_fetch_FH1 :
    got 0x6001 { State.reset with pc := 0xFFE } (fun t => (t.getV 0, t.pc)) = some (0x01, 0x1000) := by decide

/-- FH2. -/
theorem test_fetch_FH2 :
    hostGot .tick { State.reset with pc := 0xFFF } (fun t r => (t.pc, t.fault, r.resp)) =
      some (0xFFF, some ⟨.fetchOutOfBounds, 0xFFF⟩, .errFault ⟨.fetchOutOfBounds, 0xFFF⟩) := by decide

/-- FH3: nothing loaded. -/
theorem test_fetch_FH3 :
    hostGot .tick State.reset (fun t r => (t.pc, t.started, r.resp)) =
      some (0x200, true, .errFault ⟨.illegalInstruction 0x0000, 0x200⟩) := by decide

/-- FH2: the FSM state (R78). -/
theorem test_fsm_FH2 : got 0x00EE State.reset State.fsm = some .faulted ∧ State.reset.fsm = .ready := by decide

/-- KT14. -/
theorem test_tickTimers_KT14 :
    hostGot .tickTimers { State.reset with st := 2 } (fun t r => (t.dt, t.st, r.soundStop, t.soundOn)) =
      some (0, 1, false, true) := by decide

/-- KT15. -/
theorem test_tickTimers_KT15 :
    hostGot .tickTimers { State.reset with st := 1 } (fun t r => (t.st, r.soundStop, t.soundOn)) =
      some (0, true, false) := by decide

/-- S10: no underflow. -/
theorem test_tickTimers_S10 :
    hostGot .tickTimers { State.reset with dt := 1 } (fun t _ => t.dt) = some 0 ∧
      hostGot .tickTimers State.reset (fun t _ => t.dt) = some 0 := by decide

/-- FH7. -/
theorem test_keypress_FH7 :
    hostGot (.keypress 3 true) State.reset (fun t r => (t.keyDown 3, r.resp)) = some (true, .ok) := by decide

/-- FH8. -/
theorem test_keypress_FH8 :
    hostGot (.keypress 16 true) State.reset (fun t r => (t.key, t.fault, r.resp)) =
      some (State.reset.key, none, .errCall (.keypressIndexOutOfRange 16)) := by decide

/-- FH13: the second of two loads. -/
theorem test_load_FH13 :
    hostGot (.load [0x11, 0x22]) (withBytes 0x200 [0xAA, 0xBB, 0xCC, 0xDD] State.reset)
      (fun t r => ([t.mem.read 0x200, t.mem.read 0x201, t.mem.read 0x202, t.mem.read 0x203], r.resp)) =
      some ([0x11, 0x22, 0xCC, 0xDD], .ok) := by decide

/-- FH12: a load after the start. -/
theorem test_load_FH12 :
    hostGot (.load [0x12, 0x00]) { State.reset with started := true } (fun t r => (t.mem, r.resp)) =
      some ([], .unsupported) := by decide

/-- FH14. -/
theorem test_display_FH14 :
    hostGot .getDisplay { State.reset with fb := State.reset.fb.setCell 2 1 true }
      (fun _ r => r.display.map fun d => (d[65]?, d[66]?, d[67]?)) =
      some (some (some false, some true, some false)) := by decide

/-- FH6: reset from a faulted state. -/
theorem test_reset_FH6 :
    hostGot .reset { regs [(1, 7)] with fault := some ⟨.stackOverflow, 0x200⟩, started := true }
      (fun t r => (t.getV 1, t.pc, t.fault, t.started, r.resp)) = some (0, 0x200, none, false, .ok) := by decide

/-- The codes of R200. -/
theorem test_codes :
    (Fault.illegalInstruction 0).code = 0x02 ∧ (Fault.keyIndexOutOfRange 16).code = 0x06 ∧
      (HostError.loadOutOfBounds 3585).code = 0x12 := by decide

/-- `withFetchWord` makes a faulted, unfetchable state run the word (log entry 18). -/
theorem test_withFetchWord_clears_the_latch :
    got 0x6A42 { State.reset with pc := 0xFFFF, fault := some ⟨.fetchOutOfBounds, 0xFFFF⟩ }
      (fun t => (t.getV 0xA, t.pc)) = some (0x42, 0x202) := by decide


/-! ### Witnesses: for each obligation with hypotheses, a state and operands that meet them together -/

theorem witness_DecodeOfEncodeIsTheInstruction : (Instr.drw 15 0 15).wf = true ∧ Instr.ret.wf = true := by decide

theorem witness_EncodeOfDecodeIsTheWord : decode 0xDFFF = some (.drw 15 15 15) ∧ decode 0x8FF6 = some (.shr 15 15) := by
  decide

/-- One word for each clause. -/
theorem witness_DecodeFollowsEveryTableRow :
    (∃ r ∈ opcodeTable, (0x00EE : Word) &&& r.mask = r.code) ∧ ∀ r ∈ opcodeTable, (0x8128 : Word) &&& r.mask ≠ r.code := by
  decide

theorem witness_StepRunsTheDecodedInstruction :
    let s := State.reset.withFetchWord 16 0x1200
    s.fault = none ∧ s.pc.toNat + 1 < 4096 ∧
      decode (s.mem.read s.pc.toNat ++ s.mem.read (s.pc.toNat + 1)) = some (.jp 0x200) := by decide

/-- The last `PC` that fetches and the first that does not. -/
theorem witness_FetchIsBigEndianAndBounded :
    { State.reset with pc := 0x0FFE }.pc.toNat ≤ 4094 ∧ { State.reset with pc := 0x0FFF }.pc.toNat > 4094 ∧
      { State.reset with pc := 0x0FFF }.fault = none := by decide

theorem witness_IllegalWordIsRecordedWithItsAddress :
    State.reset.fault = none ∧ State.reset.fetch = some 0x0000 ∧ decode 0x0000 = none := by decide

/-- A faulted state. -/
def faulted : State := { State.reset with started := true, fault := some ⟨.stackOverflow, 0x200⟩ }

theorem witness_FaultedTickRepeatsTheError : faulted.fault = some ⟨.stackOverflow, 0x200⟩ := rfl

/-- An instruction's own fault, not only the fetch's or the decode's. -/
theorem witness_FaultingTickCommitsNothing :
    let s := State.reset.withFetchWord 16 0x00EE
    s.fault = none ∧ ∃ t, step s = .next t ∧ t.fault ≠ none := by
  refine ⟨rfl, _, rfl, by decide⟩

theorem witness_InstructionsRaiseExactlyTheirOwnFaults :
    State.reset.fault = none ∧ OwnFault .ret State.reset = some .stackUnderflow ∧ OwnFault .cls State.reset = none := by
  decide

/-- Each fault that an instruction can raise, at the least value that raises it. -/
theorem witness_RaisingInstructionWritesNothing :
    OwnFault .ret State.reset = some .stackUnderflow ∧
    OwnFault (.call 0) { State.reset with sp := 16 } = some .stackOverflow ∧
    OwnFault (.drw 0 0 1) { State.reset with i := 4096 } = some (.memOutOfBounds 4096) ∧
    OwnFault (.ldB 0) { State.reset with i := 4094 } = some (.memOutOfBounds 4096) ∧
    OwnFault (.ldMemVx 0) { State.reset with i := 4096 } = some (.memOutOfBounds 4096) ∧
    OwnFault (.ldVxMem 15) { State.reset with i := 4081 } = some (.memOutOfBounds 4096) ∧
    OwnFault (.skp 2) (regs [(2, 16)]) = some (.keyIndexOutOfRange 16) ∧
    OwnFault (.sknp 2) (regs [(2, 255)]) = some (.keyIndexOutOfRange 255) := by decide

/-- A state at the bounds of the invariant: memory listed, the largest `PC`, the largest slot, a latched fault. -/
def edge : State :=
  { State.reset with
    pc := 0x10FE, stk := State.reset.stk.set 0 4096, mem := [(0, 0x11), (4095, 0x22)], started := true,
    fault := some ⟨.fetchOutOfBounds, 0x10FE⟩ }

theorem edge_inv : edge.Inv :=
  ⟨by decide, by decide, by decide, by rintro r ⟨⟩; exact ⟨rfl, rfl⟩⟩

theorem witness_StepKeepsTheMachineInvariant : edge.Inv ∧ ∃ t, step edge = .next t := ⟨edge_inv, _, rfl⟩

theorem witness_HostOperationsKeepTheMachineInvariant :
    edge.Inv ∧ ∃ t r, perform (.keypress 15 true) edge = .next (t, r) := ⟨edge_inv, _, _, rfl⟩

theorem witness_InstructionsWriteOnlyWhatTheAccessTableGives :
    (∃ t, exec (.addReg 1 2) State.reset = .next t) ∧ ¬ WrittenBy (.addReg 1 2) State.reset (.v 2) :=
  ⟨⟨_, rfl⟩, by show ¬ ((2 : Reg) = 1 ∨ (2 : Reg) = VF); decide⟩

theorem witness_ControlGoesOnlyToTheListedTargets :
    let s := { State.reset with sp := 1 }
    OwnFault .ret s = none ∧ ∃ t, exec .ret s = .next t := ⟨by decide, _, rfl⟩

/-- A draw that changes the display, for the first clause. -/
theorem witness_DisplayChangesOnlyByClearDrawAndReset :
    (∃ t, step (State.reset.withFetchWord 16 0xD001) = .next t ∧ t.fb.cell 0 0 ≠ State.reset.fb.cell 0 0) ∧
    HostOp.tickTimers ≠ .tick ∧ HostOp.tickTimers ≠ .reset ∧ ∃ t r, perform .tickTimers State.reset = .next (t, r) :=
  ⟨⟨_, rfl, by decide⟩, by decide, by decide, _, _, rfl⟩

theorem witness_TimersChangeOnlyByTheirWriters :
    (∃ t, step ((regs [(1, 9)]).withFetchWord 16 0xF115) = .next t ∧ t.dt ≠ 0) ∧
    (∃ t, step ((regs [(1, 9)]).withFetchWord 16 0xF118) = .next t ∧ t.st ≠ 0) ∧
    HostOp.getDisplay ≠ .tick ∧ HostOp.getDisplay ≠ .tickTimers ∧ HostOp.getDisplay ≠ .reset ∧
    ∃ t r, perform .getDisplay State.reset = .next (t, r) :=
  ⟨⟨_, rfl, by decide⟩, ⟨_, rfl, by decide⟩, by decide, by decide, by decide, _, _, rfl⟩

/-- Two states that differ in the slot at `SP`, and step by a call that writes it. -/
theorem witness_StaleStackSlotsAreNeverRead :
    let s := State.reset.withFetchWord 16 0x2300
    SameButStaleSlots s { s with stk := s.stk.set 0 0xBEEF } ∧ ∃ t, step s = .next t :=
  ⟨⟨rfl, by intro k _ hk; exact absurd hk (Nat.not_lt_zero k)⟩, _, rfl⟩

theorem witness_JumpToItselfStaysForEver :
    let s := { State.reset.withFetchWord 16 0x1200 with started := true }
    s.goodEnd ∧ s.started = true := ⟨⟨rfl, 0x200, by decide, by decide⟩, rfl⟩

theorem witness_CanonicalMemoriesThatReadAlikeAreEqual :
    let m : Memory := [(0x000, 0x11), (0xFFF, 0xAB)]
    m.wf = true ∧ ∀ a, a < 4096 → m.read a = m.read a := ⟨by decide, fun _ _ => rfl⟩

/-- `PC` at the last pair of bytes that FX55 stores, at the top of memory. -/
theorem witness_StoreOverCodeIsFetchedNext :
    let s := { State.reset with i := 4094, pc := 4094 }
    (0 + 1 ≤ (1 : Reg).val) ∧ s.mem.wf = true ∧ s.i.toNat + (1 : Reg).val < 4096 ∧ s.pc.toNat = s.i.toNat + 0 := by
  decide

/-- An empty stack, a full one, and the values next to them: the clauses of the return and of the call. -/
theorem witness_ReturnPopsTheProgramCounter :
    0 < { State.reset with sp := 1 }.sp.val ∧ 0 < { State.reset with sp := 16 }.sp.val ∧ State.reset.sp.val = 0 := by
  decide

theorem witness_CallPushesTheFetchedProgramCounter :
    State.reset.sp.val < 16 ∧ { State.reset with sp := 15 }.sp.val < 16 ∧ { State.reset with sp := 16 }.sp.val = 16 := by
  decide

theorem witness_ReturnResumesAfterTheCall :
    let s := { State.reset with sp := 15 }
    s.sp.val < 16 ∧ ∃ t, exec (.call 0x300) s = .next t ∧ ∃ u : State, u.sp = t.sp ∧ u.stk = t.stk :=
  ⟨by decide, _, rfl, _, rfl, rfl⟩

theorem witness_RegisterSkipsCompareVxWithVy : (0x1#4 ≠ 0) ∧ (0xF#4 ≠ 0) := by decide

/-- The least target past the last fetchable address, and the greatest. -/
theorem witness_OffsetJumpAddsVZeroExactly :
    (regs [(0, 0x00)]).fault = none ∧ 4095 ≤ ((regs [(0, 0x00)]).getV 0).toNat + (0xFFF#12).toNat ∧
    4095 ≤ ((regs [(0, 0xFF)]).getV 0).toNat + (0xFFF#12).toNat := by decide

theorem witness_AddSetsTheCarry : (0 : Reg) ≠ VF ∧ (14 : Reg) ≠ VF := by decide

theorem witness_SubtractionsSetNotBorrow : (1 : Reg) ≠ VF := by decide

theorem witness_ShiftsPutTheBitShiftedOutInTheFlag : (1 : Reg) ≠ VF := by decide

theorem witness_RandomByteIsMasked : (0x0F#8).getLsbD 7 = false ∧ (0x00#8).getLsbD 0 = false := by decide

theorem witness_GlyphAddressIsFiveTimesVx : ((regs [(4, 15)]).getV 4).toNat < 16 ∧ (0 < 5) ∧ (4 < 5) := by decide

/-- The highest `I` that works. -/
theorem witness_DecimalDigitsAreStoredAtI :
    let s := { State.reset with i := 4093 }
    s.mem.wf = true ∧ s.i.toNat + 2 < 4096 := by decide

theorem witness_RegistersAreStoredFromI :
    let s := { State.reset with i := 4080 }
    s.mem.wf = true ∧ s.i.toNat + (15 : Reg).val < 4096 ∧ (15 : Reg) ≤ 15 := by decide

theorem witness_RegistersAreLoadedFromI :
    let s := { State.reset with i := 4095 }
    s.i.toNat + (0 : Reg).val < 4096 ∧ (0 : Reg) ≤ 0 := by decide

/-- The lowest `I` that raises, for each clause, and the highest there is. -/
theorem witness_IndexedAccessBeyondMemoryRaises :
    { State.reset with i := 4094 }.i.toNat + 2 ≥ 4096 ∧
    { State.reset with i := 4081 }.i.toNat + (15 : Reg).val ≥ 4096 ∧
    (0 < 15 ∧ { State.reset with i := 4082 }.i.toNat + 15 - 1 ≥ 4096) ∧
    (0 < 1 ∧ { State.reset with i := 0xFFFF }.i.toNat + 1 - 1 ≥ 4096) := by decide

/-- No rows with `I` out of memory; the most rows that fit; a covered cell that is on, and none. -/
theorem witness_DrawFlipsExactlyTheCoveredCells :
    (0 < 16 ∧ (0 = 0 ∨ { State.reset with i := 0xFFFF }.i.toNat + 0 - 1 < 4096)) ∧
    (15 < 16 ∧ (15 = 0 ∨ { State.reset with i := 4081 }.i.toNat + 15 - 1 < 4096)) ∧
    (∃ px py, { State.reset with fb := State.reset.fb.setCell 0 0 true }.fb.cell px py = true ∧
      SpriteCovers { State.reset with fb := State.reset.fb.setCell 0 0 true } 0 0 1 px py) ∧
    ¬ ∃ px py, State.reset.fb.cell px py = true ∧ SpriteCovers State.reset 0 0 1 px py := by
  refine ⟨by decide, by decide, ⟨0, 0, by decide, 0, 0, by decide, by decide, by decide, by decide, by decide⟩, ?_⟩
  rintro ⟨px, py, h, _⟩
  rw [show State.reset.fb.cell px py = false from Screen.cell_blank px py] at h
  exact Bool.noConfusion h

theorem witness_DrawingTwiceRestoresTheDisplay :
    OwnFault (.drw 0 1 15) State.reset = none ∧
    ∃ t, exec (.drw 0 1 15) State.reset = .next t ∧
      t.i = State.reset.i ∧ t.mem = State.reset.mem ∧ t.getV 0 = State.reset.getV 0 ∧ t.getV 1 = State.reset.getV 1 ∧
      ∃ u, exec (.drw 0 1 15) t = .next u :=
  ⟨by decide, _, rfl, rfl, rfl, by decide, by decide, _, rfl⟩

/-- The last key, and the first value that names none. -/
theorem witness_KeySkipsTestTheKeyLevel :
    ((regs [(2, 15)]).getV 2).toNat = (15 : Key).val ∧ 16 ≤ ((regs [(2, 16)]).getV 2).toNat := by decide

/-- Keys 4 and 9 pressed, key 15 alone pressed, none pressed. -/
theorem witness_KeyWaitTakesTheLowestPressedKey :
    let s := press 4 (press 9 State.reset)
    let s' := press 15 State.reset
    (s.key[(4 : Key).val] = true ∧ ∀ j : Key, s.key[j.val] = true → 4 ≤ j) ∧
    (s'.key[(15 : Key).val] = true ∧ ∀ j : Key, s'.key[j.val] = true → 15 ≤ j) ∧
    ∀ k : Key, State.reset.key[k.val] = false := by decide

theorem witness_SoundStopOnlyByTheLastTimerTick :
    (∃ t r, perform .tickTimers { State.reset with st := 1 } = .next (t, r)) ∧
    ∃ t r, perform .tick State.reset = .next (t, r) := ⟨⟨_, _, rfl⟩, _, _, rfl⟩

theorem witness_KeypressSetsOneKeyOrAnswersAnError : 0 < 16 ∧ 15 < 16 ∧ 16 ≤ 16 := by decide

theorem witness_DisplayReadOutIsRowMajor : 0 < 2048 ∧ 2047 < 2048 := by decide

/-- The longest load that fits, the shortest that does not, and a started machine. -/
theorem witness_LoadCopiesTheBytesOrChangesNothing :
    State.reset.started = false ∧ State.reset.mem.wf = true ∧ (List.replicate 3584 (0xAA : Byte)).length ≤ 3584 ∧
    3584 < (List.replicate 3585 (0xAA : Byte)).length ∧ faulted.started = true := by
  simp only [List.length_replicate]
  decide

theorem witness_RunThatLoadsAfterATickIsRefused :
    (∀ op ∈ [HostOp.tickTimers, .keypress 16 true], op ≠ .reset ∧ ∀ b', op ≠ .load b') ∧ State.reset.fault = none :=
  ⟨by simp, rfl⟩

theorem witness_FaultLatchDoesNotTouchTheDevices :
    (∃ k p, HostOp.keypress 16 true = .keypress k p) ∧ ∃ t r, perform (.keypress 16 true) faulted = .next (t, r) :=
  ⟨⟨_, _, rfl⟩, _, _, rfl⟩

end Sys2Proof.Tests
end

section
/-! PROOFS. Memory, spec 20_memory.md: the fetch of R61 and the tick whose fetch fails. -/

namespace Sys2Proof.Machine

/-- Two bytes side by side are the big-endian word of R61. -/
theorem append_eq_shiftLeft_or (hi lo : Byte) :
    (hi ++ lo : Word) = (hi.setWidth 16 <<< 8) ||| lo.setWidth 16 := by
  rw [BitVec.append_def, BitVec.shiftLeftZeroExtend_eq, BitVec.setWidth'_eq]

/-- The largest `PC` that fetches is 4094 (R61). -/
theorem State.fetch_eq_some_of_le {s : State} (h : s.pc.toNat ≤ 4094) :
    s.fetch = some (s.mem.read s.pc.toNat ++ s.mem.read (s.pc.toNat + 1)) :=
  State.fetch_eq_some.mpr ⟨by omega, rfl⟩

/-- The tick of a core with no fault latched, when the fetch gives no word (R79). -/
theorem step_of_fetch_none {s : State} (hf : s.fault = none) (hw : s.fetch = none) :
    step s = .next (s.takeFault .fetchOutOfBounds s.pc) := by
  obtain ⟨r, hr, -⟩ | ⟨-, -, hstep⟩ | ⟨w, -, hsome, -⟩ | ⟨w, i, -, hsome, -⟩ := tick_cases s
  · simp [hf] at hr
  · exact hstep
  · simp [hw] at hsome
  · simp [hw] at hsome

/-- The host's tick answers what the latch of the next state says (R79, R204). -/
theorem perform_tick_of_step {s t : State} (h : step s = .next t) :
    perform .tick s = .next (t, .plain t.tickResponse) := by
  simp only [perform, h]

/-- A tick that takes a fault answers its record (R79, R204). -/
@[simp] theorem State.tickResponse_takeFault (s : State) (e : Fault) (a : Word) :
    (s.takeFault e a).tickResponse = .errFault ⟨e, a⟩ := rfl

/-- Settles O7: up to 4094 the word is the two bytes side by side; above, the tick takes the fetch's fault. -/
theorem fetchIsBigEndianAndBounded : Obligations.FetchIsBigEndianAndBounded := by
  intro s
  constructor
  · intro hle
    rw [State.fetch_eq_some_of_le hle, append_eq_shiftLeft_or]
  · intro hgt
    have hnone : s.fetch = none := State.fetch_eq_none.mpr (by omega)
    refine ⟨hnone, fun hf => ⟨s.takeFault .fetchOutOfBounds s.pc, ?_⟩⟩
    rw [perform_tick_of_step (step_of_fetch_none hf hnone), State.tickResponse_takeFault, Reply.plain]

end Sys2Proof.Machine
end

section
/-! PROOFS. Decode, spec 30_encoding.md R74 to R76: the row a word matches decides what it decodes to, an encoded
instruction decodes to itself, and when a word decodes to nothing. -/

namespace Sys2Proof

theorem OpcodeRow.matchesWord_iff {r : OpcodeRow} {w : Word} : r.matchesWord w = true ↔ w &&& r.mask = r.code :=
  beq_iff_eq

/-- At most one row of the table matches a word (R75). -/
theorem opcodeTable_row_unique {r r' : OpcodeRow} {w : Word} (hr : r ∈ opcodeTable) (hr' : r' ∈ opcodeTable)
    (h : w &&& r.mask = r.code) (h' : w &&& r'.mask = r'.code) : r = r' := by
  by_contra hne
  have hsymm : Std.Symm fun r r' : OpcodeRow => r.code &&& r'.mask ≠ r'.code &&& r.mask := ⟨fun _ _ => Ne.symm⟩
  exact opcodeTable_disjoint.forall hr hr' hne (rows_agree h h')

/-- A word decodes to what the row it matches builds (R74). -/
theorem decode_eq_of_row {r : OpcodeRow} {w : Word} (hr : r ∈ opcodeTable) (h : w &&& r.mask = r.code) :
    decode w = some (r.build w) := by
  have hfind : opcodeTable.find? (fun r => r.matchesWord w) = some r := by
    cases hf : opcodeTable.find? (fun r => r.matchesWord w) with
    | none => exact absurd (OpcodeRow.matchesWord_iff.mpr h) (List.find?_eq_none.mp hf r hr)
    | some r' =>
      have h' : w &&& r'.mask = r'.code :=
        OpcodeRow.matchesWord_iff.mp (List.find?_some (p := fun r : OpcodeRow => r.matchesWord w) hf)
      rw [opcodeTable_row_unique (List.mem_of_find?_eq_some hf) hr h' h]
  rw [decode, hfind, Option.map_some]

/-- An instruction whose word is on its own row decodes to itself. -/
theorem decode_encode_of_statement {i : Instr} (h : Laws.EncodedFields.Statement i) (hwf : i.wf = true) :
    decode (encode i) = some i := by
  obtain ⟨r, hrow, hmatch, hbuild⟩ := h
  rw [decode_eq_of_row (List.mem_of_getElem? hrow) hmatch, hbuild hwf]

/-- A word is illegal when it matches no row (R76). -/
theorem decode_eq_none_of_rows {w : Word} (h : ∀ r ∈ opcodeTable, w &&& r.mask ≠ r.code) : decode w = none := by
  have hfind : opcodeTable.find? (fun r => r.matchesWord w) = none :=
    List.find?_eq_none.mpr fun r hr hm => h r hr (OpcodeRow.matchesWord_iff.mp hm)
  rw [decode, hfind, Option.map_none]

/-- The bits `c` of a word under a mask `m` make it illegal when they contradict every row. -/
theorem decode_eq_none_of_masked {w m c : Word} (hw : w &&& m = c)
    (hc : ∀ r ∈ opcodeTable, c &&& r.mask ≠ r.code &&& m) : decode w = none := by
  refine decode_eq_none_of_rows fun r hr hmatch => hc r hr ?_
  rw [← hw, ← hmatch, BitVec.and_assoc, BitVec.and_assoc, BitVec.and_comm m]

/-- 5XYN and 9XYN with a last nibble other than 0 are illegal (R76). -/
theorem decode_formatXY_eq_none {op n : BitVec 4} {x y : Reg} (hop : op ∈ [0x5#4, 0x9#4]) (hn : n ≠ 0) :
    decode (formatXY op x y n) = none := by
  have hrows : ∀ op ∈ [0x5#4, 0x9#4], ∀ n : BitVec 4, n ≠ 0 →
      ∀ r ∈ opcodeTable, (op ++ 0x0#4 ++ 0x0#4 ++ n : Word) &&& r.mask ≠ r.code &&& 0xF00F := by decide
  exact decode_eq_none_of_masked (formatXY_mask op x y n) (hrows op hop n hn)

end Sys2Proof
end

section
/-! PROOFS. Control flow, spec 40_control_flow.md: the jump of R102 and the conditional skips of R104 to R107, each
an assignment to `PC`. -/

namespace Sys2Proof.Machine

/-- An assignment to `PC` changes `PC` alone. -/
theorem unchangedExcept_setPc (s : State) (a : Word) : UnchangedExcept (fun c => c = .pc) s (s.setPc a) := by
  intro c hc
  cases c with
  | pc => exact absurd rfl hc
  | _ => rfl

/-- What is left to say of an instruction once it is known to be an assignment to `PC`. -/
theorem exec_assigns_pc_alone {i : Instr} {s : State} {a : Word} (h : exec i s = .next (s.setPc a)) :
    ∃ t, exec i s = .next t ∧ t.pc = a ∧ UnchangedExcept (fun c => c = .pc) s t :=
  ⟨s.setPc a, h, s.setPc_pc a, unchangedExcept_setPc s a⟩

/-- A skip on equal operands (R100). -/
theorem State.skipIf_beq (s : State) (a b : Byte) :
    s.skipIf (a == b) = s.setPc (if a = b then s.pc + 2 else s.pc) := by
  simp only [State.skipIf_eq, beq_iff_eq]

/-- A skip on unequal operands (R100). -/
theorem State.skipIf_bne (s : State) (a b : Byte) :
    s.skipIf (a != b) = s.setPc (if a = b then s.pc else s.pc + 2) := by
  simp only [State.skipIf_eq, bne_iff_ne, ne_eq, ite_not]

/-- 1NNN (R102). -/
theorem exec_jp (nnn : BitVec 12) (s : State) : exec (.jp nnn) s = .next (s.setPc (nnn.setWidth 16)) := rfl

/-- 3XNN (R104). -/
theorem exec_seImm (x : Reg) (nn : Byte) (s : State) :
    exec (.seImm x nn) s = .next (s.setPc (if s.getV x = nn then s.pc + 2 else s.pc)) :=
  congrArg Host.Outcome.next (s.skipIf_beq (s.getV x) nn)

/-- 4XNN (R105). -/
theorem exec_sneImm (x : Reg) (nn : Byte) (s : State) :
    exec (.sneImm x nn) s = .next (s.setPc (if s.getV x = nn then s.pc else s.pc + 2)) :=
  congrArg Host.Outcome.next (s.skipIf_bne (s.getV x) nn)

/-- 5XY0 (R106). -/
theorem exec_seReg (x y : Reg) (s : State) :
    exec (.seReg x y) s = .next (s.setPc (if s.getV x = s.getV y then s.pc + 2 else s.pc)) :=
  congrArg Host.Outcome.next (s.skipIf_beq (s.getV x) (s.getV y))

/-- 9XY0 (R107). -/
theorem exec_sneReg (x y : Reg) (s : State) :
    exec (.sneReg x y) s = .next (s.setPc (if s.getV x = s.getV y then s.pc else s.pc + 2)) :=
  congrArg Host.Outcome.next (s.skipIf_bne (s.getV x) (s.getV y))

/-- Settles O26: the word is the encoding of JP, which assigns `PC` and nothing else. -/
theorem jumpLoadsTheAddress : Obligations.JumpLoadsTheAddress := by
  intro nnn s
  constructor
  · exact decode_encode_of_statement (Laws.EncodedFields.jp nnn) rfl
  · exact exec_assigns_pc_alone (exec_jp nnn s)

/-- Settles O29: both words are encodings, and both instructions assign `PC` and nothing else. -/
theorem immediateSkipsCompareVxWithTheByte : Obligations.ImmediateSkipsCompareVxWithTheByte := by
  intro x nn s
  refine ⟨?decodeSe, ?decodeSne, ?execSe, ?execSne⟩
  case decodeSe => exact decode_encode_of_statement (Laws.EncodedFields.seImm x nn) rfl
  case decodeSne => exact decode_encode_of_statement (Laws.EncodedFields.sneImm x nn) rfl
  case execSe => exact exec_assigns_pc_alone (exec_seImm x nn s)
  case execSne => exact exec_assigns_pc_alone (exec_sneImm x nn s)

/-- Settles O30: with last nibble 0 both words are encodings, with another they contradict every row of the table;
both instructions assign `PC` and nothing else. -/
theorem registerSkipsCompareVxWithVy : Obligations.RegisterSkipsCompareVxWithVy := by
  intro x y s
  refine ⟨?decodeSe, ?decodeSne, fun n hn => ?illegal, ?execSe, ?execSne⟩
  case decodeSe => exact decode_encode_of_statement (Laws.EncodedFields.seReg x y) rfl
  case decodeSne => exact decode_encode_of_statement (Laws.EncodedFields.sneReg x y) rfl
  case illegal => exact ⟨decode_formatXY_eq_none (by decide) hn, decode_formatXY_eq_none (by decide) hn⟩
  case execSe => exact exec_assigns_pc_alone (exec_seReg x y s)
  case execSne => exact exec_assigns_pc_alone (exec_sneReg x y s)

end Sys2Proof.Machine
end

section
/-! PROOFS. ALU, spec 41_alu.md: the loads of R121 and R123 and the immediate sum of R122, each an assignment to one
general register. -/

namespace Sys2Proof.Machine

/-- An assignment to `V[x]` changes `V[x]` alone, whichever register it is. -/
theorem unchangedExcept_setV (s : State) (x : Reg) (b : Byte) :
    UnchangedExcept (fun c => c = .v x) s (s.setV x b) := by
  intro c hc
  cases c with
  | v r =>
    have hne : r ≠ x := fun h => hc (congrArg Component.v h)
    exact s.getV_setV_other x b hne
  | _ => rfl

/-- What is left to say of an instruction once it is known to be an assignment to `V[x]`. -/
theorem exec_assigns_v_alone {i : Instr} {s : State} {x : Reg} {b : Byte} (h : exec i s = .next (s.setV x b)) :
    ∃ t, exec i s = .next t ∧ t.getV x = b ∧ UnchangedExcept (fun c => c = .v x) s t :=
  ⟨s.setV x b, h, s.getV_setV_same x b, unchangedExcept_setV s x b⟩

/-- 6XNN (R121). -/
theorem exec_ldImm (x : Reg) (nn : Byte) (s : State) : exec (.ldImm x nn) s = .next (s.setV x nn) := rfl

/-- 7XNN (R122). -/
theorem exec_addImm (x : Reg) (nn : Byte) (s : State) :
    exec (.addImm x nn) s = .next (s.setV x (s.getV x + nn)) := rfl

/-- 8XY0 (R123). -/
theorem exec_ldReg (x y : Reg) (s : State) : exec (.ldReg x y) s = .next (s.setV x (s.getV y)) := rfl

/-- Settles O32: the word is the encoding of LD Vx, byte, which assigns `V[x]` and nothing else. -/
theorem loadImmediateSetsVx : Obligations.LoadImmediateSetsVx := by
  intro x nn s
  constructor
  · exact decode_encode_of_statement (Laws.EncodedFields.ldImm x nn) rfl
  · exact exec_assigns_v_alone (exec_ldImm x nn s)

/-- Settles O33: the word is the encoding of ADD Vx, byte, which assigns the byte sum to `V[x]` and nothing else; a sum
of bytes is the sum modulo 256. -/
theorem addImmediateWrapsAndSetsNoFlag : Obligations.AddImmediateWrapsAndSetsNoFlag := by
  intro x nn s
  constructor
  · exact decode_encode_of_statement (Laws.EncodedFields.addImm x nn) rfl
  · obtain ⟨t, hexec, hsum, hframe⟩ := exec_assigns_v_alone (exec_addImm x nn s)
    refine ⟨t, hexec, ?_, hframe⟩
    rw [hsum, BitVec.toNat_add]

/-- Settles O34: the word is the encoding of LD Vx, Vy, which assigns `V[x]` and nothing else. -/
theorem loadRegisterCopiesVy : Obligations.LoadRegisterCopiesVy := by
  intro x y s
  constructor
  · exact decode_encode_of_statement (Laws.EncodedFields.ldReg x y) rfl
  · exact exec_assigns_v_alone (exec_ldReg x y s)

end Sys2Proof.Machine
end

section
/-! PROOFS. Index register, spec 42_index_memory.md: the load of R151 and the sum of R152, each an assignment to `I`. -/

namespace Sys2Proof.Machine

/-- An assignment to `I` changes `I` alone. -/
theorem unchangedExcept_setI (s : State) (a : Word) : UnchangedExcept (fun c => c = .i) s (s.setI a) := by
  intro c hc
  cases c with
  | i => exact absurd rfl hc
  | _ => rfl

/-- What is left to say of an instruction once it is known to be an assignment to `I`. -/
theorem exec_assigns_i_alone {i : Instr} {s : State} {a : Word} (h : exec i s = .next (s.setI a)) :
    ∃ t, exec i s = .next t ∧ t.i = a ∧ UnchangedExcept (fun c => c = .i) s t :=
  ⟨s.setI a, h, s.setI_i a, unchangedExcept_setI s a⟩

/-- ANNN (R151). -/
theorem exec_ldI (nnn : BitVec 12) (s : State) : exec (.ldI nnn) s = .next (s.setI (nnn.setWidth 16)) := rfl

/-- FX1E (R152). -/
theorem exec_addI (x : Reg) (s : State) :
    exec (.addI x) s = .next (s.setI (s.i + (s.getV x).setWidth 16)) := rfl

/-- Settles O40: the word is the encoding of LD I, addr, which assigns `I` and nothing else. -/
theorem loadIndexSetsTheAddress : Obligations.LoadIndexSetsTheAddress := by
  intro nnn s
  constructor
  · exact decode_encode_of_statement (Laws.EncodedFields.ldI nnn) rfl
  · exact exec_assigns_i_alone (exec_ldI nnn s)

/-- Settles O41: the word is the encoding of ADD I, Vx, which assigns the sum of words to `I` and nothing else; a byte
widened to a word keeps its value, and a sum of words is the sum modulo 65536. -/
theorem addToIndexWrapsAtSixteenBits : Obligations.AddToIndexWrapsAtSixteenBits := by
  intro x s
  constructor
  · exact decode_encode_of_statement (Laws.EncodedFields.addI x) rfl
  · obtain ⟨t, hexec, hsum, hframe⟩ := exec_assigns_i_alone (exec_addI x s)
    refine ⟨t, hexec, ?_, hframe⟩
    rw [hsum, BitVec.toNat_add, BitVec.toNat_setWidth_of_le (by decide)]
    rfl

end Sys2Proof.Machine
end

section
/-! PROOFS. Display, spec 43_display.md: the clear of R170, an assignment to the display. -/

namespace Sys2Proof.Machine

/-- An assignment to the display changes display cells alone, whichever screen is assigned. -/
theorem unchangedExcept_fb (s : State) (d : Screen) :
    UnchangedExcept (fun c => ∃ px py, c = .fb px py) s { s with fb := d } := by
  intro c hc
  cases c with
  | fb px py => exact absurd ⟨px, py, rfl⟩ hc
  | _ => rfl

/-- 00E0 (R170). -/
theorem exec_cls (s : State) : exec .cls s = .next { s with fb := Screen.blank } := rfl

/-- Settles O47: the word is the encoding of CLS, which assigns the blank screen to the display and nothing else. -/
theorem clearTurnsEveryCellOff : Obligations.ClearTurnsEveryCellOff := by
  constructor
  · exact decode_encode_of_statement Laws.EncodedFields.cls rfl
  · intro s
    exact ⟨{ s with fb := Screen.blank }, exec_cls s, Screen.cell_blank, unchangedExcept_fb s Screen.blank⟩

end Sys2Proof.Machine
end

section
/-! PROOFS. Keys and timers, spec 44_keys_timers.md: the key wait of R182, an assignment to `V[x]` or to `PC`, and the
delay timer's read and write of R183 and R184. -/

namespace Sys2Proof.Machine

/-- A pressed key that no pressed key is below is the lowest pressed key (R182). -/
theorem State.lowestKey_eq_some {s : State} {k : Key} (hk : s.keyDown k = true)
    (hleast : ∀ j : Key, s.keyDown j = true → k ≤ j) : s.lowestKey = some k.val := by
  obtain ⟨hnone, -⟩ | ⟨l, hl, hlleast, hlowest⟩ := s.lowestKey_cases
  · exact absurd hk (by simp [hnone k])
  · rw [hlowest, le_antisymm (hlleast k hk) (hleast l hl)]

/-- With no key pressed there is no lowest pressed key (R182). -/
theorem State.lowestKey_eq_none {s : State} (h : ∀ k : Key, s.keyDown k = false) : s.lowestKey = none := by
  obtain ⟨-, hlowest⟩ | ⟨k, hk, -, -⟩ := s.lowestKey_cases
  · exact hlowest
  · exact absurd hk (by simp [h k])

/-- A key's index fits in a register. -/
theorem Key.toNat_ofNat (k : Key) : (BitVec.ofNat 8 k.val).toNat = k.val := by
  rw [BitVec.toNat_ofNat, Nat.mod_eq_of_lt (k.isLt.trans (by decide))]

/-- An assignment to `DT` changes `DT` alone. -/
theorem unchangedExcept_dt (s : State) (b : Byte) : UnchangedExcept (fun c => c = .dt) s { s with dt := b } := by
  intro c hc
  cases c with
  | dt => exact absurd rfl hc
  | _ => rfl

/-- FX0A with a key pressed (R182). -/
theorem exec_ldVxK_of_some {s : State} {n : Nat} (x : Reg) (h : s.lowestKey = some n) :
    exec (.ldVxK x) s = .next (s.setV x (BitVec.ofNat 8 n)) := by
  simp only [exec, execLdVxK, h]

/-- FX0A with no key pressed (R182). -/
theorem exec_ldVxK_of_none {s : State} (x : Reg) (h : s.lowestKey = none) :
    exec (.ldVxK x) s = .next (s.setPc (s.pc - 2)) := by
  simp only [exec, execLdVxK, h, State.pc0]

/-- FX07 (R183). -/
theorem exec_ldVxDt (x : Reg) (s : State) : exec (.ldVxDt x) s = .next (s.setV x s.dt) := rfl

/-- FX15 (R184). -/
theorem exec_ldDtVx (x : Reg) (s : State) : exec (.ldDtVx x) s = .next { s with dt := s.getV x } := rfl

/-- Settles O51: the word is the encoding of LD Vx, K, which assigns the lowest pressed key to `V[x]` when there is one,
and otherwise assigns the instruction's own address to `PC`. -/
theorem keyWaitTakesTheLowestPressedKey : Obligations.KeyWaitTakesTheLowestPressedKey := by
  intro x s
  refine ⟨?decode, fun k hk hleast => ?pressed, fun hnone => ?waiting⟩
  case decode => exact decode_encode_of_statement (Laws.EncodedFields.ldVxK x) rfl
  case pressed =>
    have hlowest : s.lowestKey = some k.val := State.lowestKey_eq_some hk hleast
    obtain ⟨t, hexec, hval, hframe⟩ := exec_assigns_v_alone (exec_ldVxK_of_some x hlowest)
    refine ⟨t, hexec, ?_, hframe⟩
    rw [hval, Key.toNat_ofNat]
  case waiting => exact exec_assigns_pc_alone (exec_ldVxK_of_none x (State.lowestKey_eq_none hnone))

/-- Settles O52: both words are encodings; LD Vx, DT assigns `V[x]` and LD DT, Vx assigns `DT`, each nothing else. -/
theorem delayTimerIsReadAndWritten : Obligations.DelayTimerIsReadAndWritten := by
  intro x s
  refine ⟨?decodeRead, ?decodeWrite, ?execRead, ?execWrite⟩
  case decodeRead => exact decode_encode_of_statement (Laws.EncodedFields.ldVxDt x) rfl
  case decodeWrite => exact decode_encode_of_statement (Laws.EncodedFields.ldDtVx x) rfl
  case execRead => exact exec_assigns_v_alone (exec_ldVxDt x s)
  case execWrite => exact ⟨{ s with dt := s.getV x }, exec_ldDtVx x s, rfl, unchangedExcept_dt s (s.getV x)⟩

end Sys2Proof.Machine
end

section
/-! PROOFS. Timers and display between core and host, spec 60_exceptions.md: who writes them (R215, R220), the
count-down and its event (R212, R213), and the read-out of the display (R218). -/

namespace Sys2Proof.Machine

/-! ### What the host's devices show -/

/-- The components behind the screen and the sound, which few operations write: the display and the two timers (R215,
R220). -/
def State.devices (s : State) : Screen × Byte × Byte := (s.fb, s.dt, s.st)

theorem State.devices_eq_iff {s t : State} :
    t.devices = s.devices ↔ t.fb = s.fb ∧ t.dt = s.dt ∧ t.st = s.st := by
  simp [State.devices]

@[simp] theorem State.devices_setPc (s : State) (a : Word) : (s.setPc a).devices = s.devices := rfl

@[simp] theorem State.devices_skipIf (s : State) (c : Bool) : (s.skipIf c).devices = s.devices := by
  rw [State.skipIf_eq, State.devices_setPc]

/-- Raising leaves the devices alone (R203). -/
theorem devices_of_raise {e : Fault} {s t : State} (h : raise e s = .next t) : t.devices = s.devices := by
  cases h
  rfl

/-- An access through `I` ends in the state it was given, or raises and leaves the devices alone (R150). -/
theorem State.indexed_next_cases {s t u : State} {kmax : Nat} (h : s.indexed kmax u = .next t) :
    t = u ∨ t.devices = s.devices := by
  obtain ⟨-, hok⟩ | ⟨-, hraise⟩ := s.indexed_cases kmax u
  · cases hok.symm.trans h
    exact .inl rfl
  · exact .inr (devices_of_raise (hraise.symm.trans h))

theorem devices_of_execRet {s t : State} (h : execRet s = .next t) : t.devices = s.devices := by
  obtain ⟨-, hpop⟩ | ⟨-, a, u, hpop, -, -, hu⟩ := s.pop_cases <;> simp only [execRet, hpop] at h
  · exact devices_of_raise h
  · cases h
    rw [hu]
    rfl

theorem devices_of_execCall {nnn : BitVec 12} {s t : State} (h : execCall nnn s = .next t) :
    t.devices = s.devices := by
  obtain ⟨-, hpush⟩ | ⟨-, u, hpush, -, -, hu⟩ := s.push_cases s.pc <;> simp only [execCall, hpush] at h
  · exact devices_of_raise h
  · cases h
    rw [hu]
    rfl

/-- A draw, completed or raising, leaves the timers alone (R171). -/
theorem timers_of_execDrw {x y : Reg} {n : Nat} {s t : State} (h : execDrw x y n s = .next t) :
    t.dt = s.dt ∧ t.st = s.st := by
  cases n with
  | zero =>
    cases h
    exact ⟨rfl, rfl⟩
  | succ k =>
    obtain rfl | hsame := State.indexed_next_cases h
    · exact ⟨rfl, rfl⟩
    · exact (State.devices_eq_iff.mp hsame).2

/-- Everything an instruction can do to the display and the timers (R38). -/
theorem exec_devices_cases {i : Instr} {s t : State} (h : exec i s = .next t) :
    t.devices = s.devices ∨
    ((i = .cls ∨ ∃ x y n, i = .drw x y n) ∧ t.dt = s.dt ∧ t.st = s.st) ∨
    (∃ x, i = .ldDtVx x ∧ t = { s with dt := s.getV x }) ∨
    (∃ x, i = .ldStVx x ∧ t = { s with st := s.getV x }) := by
  cases i with
  | cls =>
    cases h
    exact .inr (.inl ⟨.inl rfl, rfl, rfl⟩)
  | drw x y n => exact .inr (.inl ⟨.inr ⟨x, y, n, rfl⟩, timers_of_execDrw h⟩)
  | ldDtVx x =>
    cases h
    exact .inr (.inr (.inl ⟨x, rfl, rfl⟩))
  | ldStVx x =>
    cases h
    exact .inr (.inr (.inr ⟨x, rfl, rfl⟩))
  | ret => exact .inl (devices_of_execRet h)
  | call nnn => exact .inl (devices_of_execCall h)
  | skp x | sknp x =>
    obtain ⟨-, hkey⟩ | ⟨k, -, hkey⟩ := keyOf_cases (s.getV x) <;> simp only [exec, execSkp, execSknp, hkey] at h
    · exact .inl (devices_of_raise h)
    · cases h
      exact .inl (s.devices_skipIf _)
  | ldVxK x =>
    cases hkey : s.lowestKey with
    | some n =>
      cases (exec_ldVxK_of_some x hkey).symm.trans h
      exact .inl rfl
    | none =>
      cases (exec_ldVxK_of_none x hkey).symm.trans h
      exact .inl rfl
  | seImm | sneImm | seReg | sneReg =>
    cases h
    exact .inl (s.devices_skipIf _)
  | ldB | ldMemVx | ldVxMem =>
    obtain rfl | hsame := State.indexed_next_cases h
    · exact .inl rfl
    · exact .inl hsame
  | jp | jpV0 | ldImm | addImm | ldReg | orReg | andReg | xorReg | addReg | sub | shr | subn | shl | rnd | ldI | addI
    | ldF | ldVxDt =>
    cases h
    exact .inl rfl

/-- A tick that changes something that taking a fault leaves alone has run an instruction (R79). -/
theorem step_ran_instruction_of_ne {α : Type} (f : State → α) (hfault : ∀ s e a, f (s.takeFault e a) = f s)
    {s t : State} (h : step s = .next t) (hne : f t ≠ f s) :
    ∃ w i, s.fetch = some w ∧ decode w = some i ∧ exec i s.afterFetch = .next t := by
  obtain ⟨r, -, hstep⟩ | ⟨-, -, hstep⟩ | ⟨w, -, -, -, hstep⟩ | ⟨w, i, -, hfetch, hdecode, hstep⟩ :=
    tick_cases s
  · cases hstep.symm.trans h
    exact absurd rfl hne
  · cases hstep.symm.trans h
    exact absurd (hfault _ _ _) hne
  · cases hstep.symm.trans h
    exact absurd (hfault _ _ _) hne
  · exact ⟨w, i, hfetch, hdecode, hstep.symm.trans h⟩

/-- A tick that changes the display has run 00E0 or DXYN (R220). -/
theorem step_changes_fb {s t : State} (h : step s = .next t) (hne : t.fb ≠ s.fb) :
    ∃ w, s.fetch = some w ∧ (decode w = some .cls ∨ ∃ x y n, decode w = some (.drw x y n)) := by
  obtain ⟨w, i, hfetch, hdecode, hexec⟩ := step_ran_instruction_of_ne State.fb State.takeFault_fb h hne
  refine ⟨w, hfetch, ?_⟩
  obtain hsame | ⟨rfl | ⟨x, y, n, rfl⟩, -⟩ | ⟨x, -, rfl⟩ | ⟨x, -, rfl⟩ := exec_devices_cases hexec
  · exact absurd (State.devices_eq_iff.mp hsame).1 hne
  · exact .inl hdecode
  · exact .inr ⟨x, y, n, hdecode⟩
  · exact absurd rfl hne
  · exact absurd rfl hne

/-- A tick that changes `DT` has run FX15 (R215). -/
theorem step_changes_dt {s t : State} (h : step s = .next t) (hne : t.dt ≠ s.dt) :
    ∃ w x, s.fetch = some w ∧ decode w = some (.ldDtVx x) ∧ t.dt = s.getV x := by
  obtain ⟨w, i, hfetch, hdecode, hexec⟩ := step_ran_instruction_of_ne State.dt State.takeFault_dt h hne
  obtain hsame | ⟨-, hdt, -⟩ | ⟨x, rfl, rfl⟩ | ⟨x, -, rfl⟩ := exec_devices_cases hexec
  · exact absurd (State.devices_eq_iff.mp hsame).2.1 hne
  · exact absurd hdt hne
  · exact ⟨w, x, hfetch, hdecode, rfl⟩
  · exact absurd rfl hne

/-- A tick that changes `ST` has run FX18 (R215). -/
theorem step_changes_st {s t : State} (h : step s = .next t) (hne : t.st ≠ s.st) :
    ∃ w x, s.fetch = some w ∧ decode w = some (.ldStVx x) ∧ t.st = s.getV x := by
  obtain ⟨w, i, hfetch, hdecode, hexec⟩ := step_ran_instruction_of_ne State.st State.takeFault_st h hne
  obtain hsame | ⟨-, -, hst⟩ | ⟨x, -, rfl⟩ | ⟨x, rfl, rfl⟩ := exec_devices_cases hexec
  · exact absurd (State.devices_eq_iff.mp hsame).2.2 hne
  · exact absurd hst hne
  · exact absurd rfl hne
  · exact ⟨w, x, hfetch, hdecode, rfl⟩

/-! ### The host's other operations -/

theorem State.devices_hostLoad (s : State) (b : List Byte) : (s.hostLoad b).devices = s.devices := by
  unfold State.hostLoad
  split <;> rfl

theorem State.devices_hostKeypress (s : State) (k : Nat) (p : Bool) : (s.hostKeypress k p).devices = s.devices := by
  unfold State.hostKeypress
  split <;> rfl

/-- load, keypress and get_display leave the display and the timers alone (R215, R220). -/
theorem perform_keeps_devices {op : HostOp} {s t : State} {r : Reply} (htick : op ≠ .tick)
    (htimers : op ≠ .tickTimers) (hreset : op ≠ .reset) (h : perform op s = .next (t, r)) :
    t.devices = s.devices := by
  cases op with
  | reset => exact absurd rfl hreset
  | tick => exact absurd rfl htick
  | tickTimers => exact absurd rfl htimers
  | load b =>
    cases h
    exact s.devices_hostLoad b
  | keypress k p =>
    cases h
    exact s.devices_hostKeypress k p
  | getDisplay =>
    cases h
    rfl

/-- Settles O19: of the instructions only 00E0 and DXYN write the display; of the host's operations other than tick and
reset, tick_timers writes the timers and the rest leave the devices alone. -/
theorem displayChangesOnlyByClearDrawAndReset : Obligations.DisplayChangesOnlyByClearDrawAndReset := by
  refine ⟨fun s t => step_changes_fb, fun op s t r htick hreset h => ?_⟩
  by_cases htimers : op = .tickTimers
  · subst htimers
    cases h
    exact s.hostTickTimers_fb
  · exact (State.devices_eq_iff.mp (perform_keeps_devices htick htimers hreset h)).1

/-! ### The timers -/

/-- A timer counts down by one and stops at zero, as subtraction of naturals does (R212). -/
theorem toNat_decTimer (b : Byte) : (decTimer b).toNat = b.toNat - 1 := by
  unfold decTimer
  split
  next h =>
    rw [h]
    rfl
  next => bv_omega

/-- tick_timers changes the timers alone (R212). -/
theorem unchangedExcept_hostTickTimers (s : State) :
    UnchangedExcept (fun c => c = .dt ∨ c = .st) s s.hostTickTimers := by
  intro c hc
  cases c with
  | dt => exact absurd (.inl rfl) hc
  | st => exact absurd (.inr rfl) hc
  | _ => rfl

/-- Settles O20: of the instructions only FX15 writes `DT` and only FX18 writes `ST`; tick_timers counts both down and
changes nothing else; load, keypress and get_display leave the devices alone. -/
theorem timersChangeOnlyByTheirWriters : Obligations.TimersChangeOnlyByTheirWriters := by
  refine ⟨fun s t => step_changes_dt, fun s t => step_changes_st, fun s => ?_, ?_⟩
  · exact ⟨s.hostTickTimers, _, rfl, toNat_decTimer s.dt, toNat_decTimer s.st, unchangedExcept_hostTickTimers s⟩
  · intro op s t r htick htimers hreset h
    exact (State.devices_eq_iff.mp (perform_keeps_devices htick htimers hreset h)).2

/-! ### The event `sound_stop` -/

@[simp] theorem Reply.plain_soundStop (r : Response) : (Reply.plain r).soundStop = false := rfl

theorem State.soundStop_iff {s : State} : s.soundStop = true ↔ s.st = 1 := beq_iff_eq

/-- The reply to a tick is a response and nothing else. -/
theorem reply_of_perform_tick {s t : State} {r : Reply} (h : perform .tick s = .next (t, r)) :
    r = .plain t.tickResponse := by
  cases hstep : step s with
  | next u =>
    rw [perform_tick_of_step hstep] at h
    cases h
    rfl
  | fault | refused => simp [perform, hstep] at h

/-- Settles O54: every operation but tick_timers has a plain reply, which asserts no event. -/
theorem soundStopOnlyByTheLastTimerTick : Obligations.SoundStopOnlyByTheLastTimerTick := by
  intro op s t r h
  cases op with
  | tickTimers =>
    cases h
    simp [State.soundStop_iff]
  | tick => simp [reply_of_perform_tick h]
  | reset | load | keypress | getDisplay =>
    cases h
    simp

/-! ### The read-out of the display -/

/-- The display read out is the rows of the grid one after the other (R218). -/
theorem State.display_eq_flatten (s : State) : s.display = s.fb.flatten.toList := by
  show _ = (s.fb.toArray.map Vector.toArray).flatten.toList
  rw [State.display, List.flatMap_def, Array.toList_flatten, Array.toList_map, List.map_map]
  rfl

/-- Settles O56: the display read out is the flattened grid, in which cell `k` is column `k mod 64` of row `k / 64`. -/
theorem displayReadOutIsRowMajor : Obligations.DisplayReadOutIsRowMajor := by
  intro s
  refine ⟨s.display, rfl, ?_, fun k hk => ?_⟩
  · rw [s.display_eq_flatten, Vector.length_toList]
    rfl
  · rw [s.display_eq_flatten, Vector.getElem?_toList, Vector.getElem?_eq_getElem hk, Vector.getElem_flatten]
    rfl

end Sys2Proof.Machine
end

section
/-! PROOFS. The round trip of decode and encode, spec 30_encoding.md R71 to R76: a word is its format over its own
fields, a row's mask fixes the fields that the row does not read back, and the illegal words by major opcode. -/

namespace Sys2Proof

/-! ### From an instruction to its word and back -/

/-- Every instruction's word is on the instruction's own row, which gives the instruction back (R72, R74). -/
theorem statement_of_instr : ∀ i : Instr, Laws.EncodedFields.Statement i
  | .cls => Laws.EncodedFields.cls
  | .ret => Laws.EncodedFields.ret
  | .jp nnn => Laws.EncodedFields.jp nnn
  | .call nnn => Laws.EncodedFields.call nnn
  | .seImm x nn => Laws.EncodedFields.seImm x nn
  | .sneImm x nn => Laws.EncodedFields.sneImm x nn
  | .seReg x y => Laws.EncodedFields.seReg x y
  | .ldImm x nn => Laws.EncodedFields.ldImm x nn
  | .addImm x nn => Laws.EncodedFields.addImm x nn
  | .ldReg x y => Laws.EncodedFields.ldReg x y
  | .orReg x y => Laws.EncodedFields.orReg x y
  | .andReg x y => Laws.EncodedFields.andReg x y
  | .xorReg x y => Laws.EncodedFields.xorReg x y
  | .addReg x y => Laws.EncodedFields.addReg x y
  | .sub x y => Laws.EncodedFields.sub x y
  | .shr x y => Laws.EncodedFields.shr x y
  | .subn x y => Laws.EncodedFields.subn x y
  | .shl x y => Laws.EncodedFields.shl x y
  | .sneReg x y => Laws.EncodedFields.sneReg x y
  | .ldI nnn => Laws.EncodedFields.ldI nnn
  | .jpV0 nnn => Laws.EncodedFields.jpV0 nnn
  | .rnd x nn => Laws.EncodedFields.rnd x nn
  | .drw x y n => Laws.EncodedFields.drw x y n
  | .skp x => Laws.EncodedFields.skp x
  | .sknp x => Laws.EncodedFields.sknp x
  | .ldVxDt x => Laws.EncodedFields.ldVxDt x
  | .ldVxK x => Laws.EncodedFields.ldVxK x
  | .ldDtVx x => Laws.EncodedFields.ldDtVx x
  | .ldStVx x => Laws.EncodedFields.ldStVx x
  | .addI x => Laws.EncodedFields.addI x
  | .ldF x => Laws.EncodedFields.ldF x
  | .ldB x => Laws.EncodedFields.ldB x
  | .ldMemVx x => Laws.EncodedFields.ldMemVx x
  | .ldVxMem x => Laws.EncodedFields.ldVxMem x

/-- A well-formed instruction is read back from its word. -/
theorem decode_encode {i : Instr} (hwf : i.wf = true) : decode (encode i) = some i :=
  decode_encode_of_statement (statement_of_instr i) hwf

/-- The two bytes of a word, side by side, are the word (R60). -/
theorem extract_bytes_append (w : Word) : (w.extractLsb' 8 8 ++ w.extractLsb' 0 8 : Word) = w := by
  rw [BitVec.extractLsb'_append_extractLsb'_eq_extractLsb' (show 8 = 0 + 8 from rfl), BitVec.extractLsb'_eq_self]

/-- A word that decodes is read from its two bytes, and the bytes after them are left over (R60). -/
theorem decodeBytes_wordBytes_append {w : Word} {i : Instr} (h : decode w = some i) (rest : List Byte) :
    decodeBytes (wordBytes w ++ rest) = .ok (i, rest) := by
  simp only [wordBytes, List.cons_append, List.nil_append, decodeBytes, extract_bytes_append, h]

/-- Settles O1: the word of an instruction is on the instruction's own row, which reads the operands back, and the two
bytes of the word are the word. -/
theorem decodeOfEncodeIsTheInstruction : Obligations.DecodeOfEncodeIsTheInstruction := by
  intro i hwf
  have hword : decode (encode i) = some i := decode_encode hwf
  exact ⟨hword, decodeBytes_wordBytes_append hword⟩

/-! ### From a word to its instruction and back -/

theorem regBits_xField (w : Word) : regBits (xField w) = w.extractLsb' 8 4 := by
  rw [regBits, xField, BitVec.ofNat_toNat, BitVec.setWidth_eq]

theorem regBits_yField (w : Word) : regBits (yField w) = w.extractLsb' 4 4 := by
  rw [regBits, yField, BitVec.ofNat_toNat, BitVec.setWidth_eq]

/-- A word is format A over its own fields (R71). -/
theorem formatA_fields (w : Word) : formatA (opField w) (nnnField w) = w := by
  rw [formatA, opField, nnnField, BitVec.extractLsb'_append_extractLsb'_eq_extractLsb' (show 12 = 0 + 12 from rfl),
    BitVec.extractLsb'_eq_self]

/-- A word is format XK over its own fields (R71). -/
theorem formatXK_fields (w : Word) : formatXK (opField w) (xField w) (nnField w) = w := by
  rw [formatXK, regBits_xField, opField, nnField,
    BitVec.extractLsb'_append_extractLsb'_eq_extractLsb' (show 12 = 8 + 4 from rfl),
    BitVec.extractLsb'_append_extractLsb'_eq_extractLsb' (show 8 = 0 + 8 from rfl), BitVec.extractLsb'_eq_self]

/-- A word is format XS over its own fields (R71). -/
theorem formatXS_fields (w : Word) : formatXS (opField w) (xField w) (nnField w) = w := formatXK_fields w

/-- A word is format XY over its own fields (R71). -/
theorem formatXY_fields (w : Word) : formatXY (opField w) (xField w) (yField w) (nField w) = w := by
  rw [formatXY, regBits_xField, regBits_yField, opField, nField,
    BitVec.extractLsb'_append_extractLsb'_eq_extractLsb' (show 12 = 8 + 4 from rfl),
    BitVec.extractLsb'_append_extractLsb'_eq_extractLsb' (show 8 = 4 + 4 from rfl),
    BitVec.extractLsb'_append_extractLsb'_eq_extractLsb' (show 4 = 0 + 4 from rfl), BitVec.extractLsb'_eq_self]

/-- The mask of formats A, XK and XYN keeps the major opcode. -/
theorem and_opMask (w : Word) : w &&& 0xF000 = opField w ++ 0x000#12 := by
  rw [← formatA_mask (opField w) (nnnField w), formatA_fields]

/-- The mask of format XY keeps the major opcode and the last nibble. -/
theorem and_opNibbleMask (w : Word) : w &&& 0xF00F = opField w ++ 0x0#4 ++ 0x0#4 ++ nField w := by
  rw [← formatXY_mask (opField w) (xField w) (yField w) (nField w), formatXY_fields]

/-- The mask of format XS keeps the major opcode and the low byte. -/
theorem and_opByteMask (w : Word) : w &&& 0xF0FF = opField w ++ 0x0#4 ++ nnField w := by
  rw [← formatXS_mask (opField w) (xField w) (nnField w), formatXS_fields]

/-- Two appended fields determine both. -/
theorem bitVec_append_inj {m n : Nat} {a a' : BitVec m} {b b' : BitVec n} : a ++ b = a' ++ b' ↔ a = a' ∧ b = b' := by
  constructor
  · intro h
    constructor
    · simpa only [BitVec.extractLsb'_append_eq_left] using congrArg (BitVec.extractLsb' n m) h
    · simpa only [BitVec.extractLsb'_append_eq_right] using congrArg (BitVec.extractLsb' 0 n) h
  · rintro ⟨rfl, rfl⟩
    rfl

/-- A word matches a row of format A, XK or XYN by its major opcode. -/
theorem and_opMask_eq_iff {w c : Word} (hc : c &&& 0xF000 = c) : w &&& 0xF000 = c ↔ opField w = opField c := by
  conv_lhs => rw [← hc, and_opMask, and_opMask c, BitVec.append_left_inj]

/-- A word matches a row of format XY by its major opcode and its last nibble. -/
theorem and_opNibbleMask_eq_iff {w c : Word} (hc : c &&& 0xF00F = c) :
    w &&& 0xF00F = c ↔ opField w = opField c ∧ nField w = nField c := by
  conv_lhs =>
    rw [← hc, and_opNibbleMask, and_opNibbleMask c, bitVec_append_inj, BitVec.append_left_inj, BitVec.append_left_inj]

/-- A word matches a row of format XS by its major opcode and its low byte. -/
theorem and_opByteMask_eq_iff {w c : Word} (hc : c &&& 0xF0FF = c) :
    w &&& 0xF0FF = c ↔ opField w = opField c ∧ nnField w = nnField c := by
  conv_lhs => rw [← hc, and_opByteMask, and_opByteMask c, bitVec_append_inj, BitVec.append_left_inj]

/-- A word matches a row without fields when it is the row's word. -/
theorem and_fullMask_eq_iff {w c : Word} : w &&& 0xFFFF = c ↔ w = c := by
  rw [show w &&& 0xFFFF = w from BitVec.and_allOnes]

theorem formatA_of_match {w c : Word} (hc : c &&& 0xF000 = c) (h : w &&& 0xF000 = c) :
    formatA (opField c) (nnnField w) = w := by
  rw [← (and_opMask_eq_iff hc).mp h, formatA_fields]

theorem formatXK_of_match {w c : Word} (hc : c &&& 0xF000 = c) (h : w &&& 0xF000 = c) :
    formatXK (opField c) (xField w) (nnField w) = w := by
  rw [← (and_opMask_eq_iff hc).mp h, formatXK_fields]

theorem formatXY_of_match {w c : Word} (hc : c &&& 0xF00F = c) (h : w &&& 0xF00F = c) :
    formatXY (opField c) (xField w) (yField w) (nField c) = w := by
  obtain ⟨hop, hn⟩ := (and_opNibbleMask_eq_iff hc).mp h
  rw [← hop, ← hn, formatXY_fields]

theorem formatXYN_of_match {w c : Word} (hc : c &&& 0xF000 = c) (h : w &&& 0xF000 = c) :
    formatXY (opField c) (xField w) (yField w) (BitVec.ofNat 4 (nField w).toNat) = w := by
  rw [← (and_opMask_eq_iff hc).mp h, BitVec.ofNat_toNat, BitVec.setWidth_eq, formatXY_fields]

theorem formatXS_of_match {w c : Word} (hc : c &&& 0xF0FF = c) (h : w &&& 0xF0FF = c) :
    formatXS (opField c) (xField w) (nnField c) = w := by
  obtain ⟨hop, hnn⟩ := (and_opByteMask_eq_iff hc).mp h
  rw [← hop, ← hnn, formatXS_fields]

/-- What a row builds from a word that matches it is encoded as that word. -/
def OpcodeRow.EncodesBack (r : OpcodeRow) : Prop :=
  ∀ w : Word, w &&& r.mask = r.code → encode (r.build w) = w

theorem encodesBack_rowsLow : ∀ r ∈ opcodeRowsLow, r.EncodesBack := by
  simp only [opcodeRowsLow, List.forall_mem_cons, List.not_mem_nil, false_implies, implies_true, and_true]
  exact ⟨fun w h => (and_fullMask_eq_iff.mp h).symm, fun w h => (and_fullMask_eq_iff.mp h).symm,
    fun w => formatA_of_match rfl, fun w => formatA_of_match rfl, fun w => formatXK_of_match rfl,
    fun w => formatXK_of_match rfl, fun w => formatXY_of_match rfl, fun w => formatXK_of_match rfl,
    fun w => formatXK_of_match rfl⟩

theorem encodesBack_rowsReg : ∀ r ∈ opcodeRowsReg, r.EncodesBack := by
  simp only [opcodeRowsReg, List.forall_mem_cons, List.not_mem_nil, false_implies, implies_true, and_true]
  refine ⟨?_, ?_, ?_, ?_, ?_, ?_, ?_, ?_, ?_, ?_⟩
  all_goals exact fun w => formatXY_of_match rfl

theorem encodesBack_rowsMid : ∀ r ∈ opcodeRowsMid, r.EncodesBack := by
  simp only [opcodeRowsMid, List.forall_mem_cons, List.not_mem_nil, false_implies, implies_true, and_true]
  exact ⟨fun w => formatA_of_match rfl, fun w => formatA_of_match rfl, fun w => formatXK_of_match rfl,
    fun w => formatXYN_of_match rfl, fun w => formatXS_of_match rfl, fun w => formatXS_of_match rfl⟩

theorem encodesBack_rowsF : ∀ r ∈ opcodeRowsF, r.EncodesBack := by
  simp only [opcodeRowsF, List.forall_mem_cons, List.not_mem_nil, false_implies, implies_true, and_true]
  refine ⟨?_, ?_, ?_, ?_, ?_, ?_, ?_, ?_, ?_⟩
  all_goals exact fun w => formatXS_of_match rfl

theorem encodesBack_of_mem {r : OpcodeRow} (hr : r ∈ opcodeTable) : r.EncodesBack := by
  simp only [opcodeTable, List.mem_append] at hr
  obtain ((hlow | hreg) | hmid) | hf := hr
  · exact encodesBack_rowsLow r hlow
  · exact encodesBack_rowsReg r hreg
  · exact encodesBack_rowsMid r hmid
  · exact encodesBack_rowsF r hf

/-- Every row builds well-formed instructions: a row count read from a nibble is below 16 (R73). -/
theorem wf_build_of_mem {r : OpcodeRow} (hr : r ∈ opcodeTable) (w : Word) : (r.build w).wf = true := by
  revert r
  simp only [opcodeTable, opcodeRowsLow, opcodeRowsReg, opcodeRowsMid, opcodeRowsF, List.forall_mem_append,
    List.forall_mem_cons, Instr.wf, decide_eq_true_eq]
  simp [(nField w).isLt]

/-- A word decodes to an instruction when it matches a row that builds the instruction (R74). -/
theorem exists_row_of_decode {w : Word} {i : Instr} (h : decode w = some i) :
    ∃ r ∈ opcodeTable, w &&& r.mask = r.code ∧ r.build w = i := by
  obtain ⟨r, hfind, hbuild⟩ := Option.map_eq_some_iff.mp h
  exact ⟨r, List.mem_of_find?_eq_some hfind,
    OpcodeRow.matchesWord_iff.mp (List.find?_some (p := fun r : OpcodeRow => r.matchesWord w) hfind), hbuild⟩

/-- Settles O2: the row that the word matches fixes, by its mask, the bits that it does not read back as operands. -/
theorem encodeOfDecodeIsTheWord : Obligations.EncodeOfDecodeIsTheWord := by
  intro w i h
  obtain ⟨r, hr, hmatch, rfl⟩ := exists_row_of_decode h
  exact ⟨encodesBack_of_mem hr w hmatch, wf_build_of_mem hr w⟩

/-- Settles O3: a row that the word matches is the only one, and with no such row the search finds none. -/
theorem decodeFollowsEveryTableRow : Obligations.DecodeFollowsEveryTableRow :=
  fun _ => ⟨fun _ => decode_eq_of_row, decode_eq_none_of_rows⟩

/-! ### The illegal space -/

/-- A word is illegal exactly when it matches no row (R76). -/
theorem decode_eq_none_iff {w : Word} : decode w = none ↔ ∀ r ∈ opcodeTable, w &&& r.mask ≠ r.code := by
  refine ⟨fun h r hr hmatch => ?_, decode_eq_none_of_rows⟩
  rw [decode_eq_of_row hr hmatch] at h
  cases h

/-- The values of a nibble. -/
theorem nibble_mem (o : BitVec 4) : o ∈ [0x0#4, 0x1#4, 0x2#4, 0x3#4, 0x4#4, 0x5#4, 0x6#4, 0x7#4, 0x8#4, 0x9#4, 0xA#4,
    0xB#4, 0xC#4, 0xD#4, 0xE#4, 0xF#4] := by
  revert o
  decide

/-- The last nibbles that major opcode 8 does not list are the rest of the sixteen. -/
theorem mem_unlisted_of_major8_iff (n : BitVec 4) :
    n ∈ [0x8#4, 0x9#4, 0xA#4, 0xB#4, 0xC#4, 0xD#4, 0xF#4] ↔
      n ∉ [0x0#4, 0x1#4, 0x2#4, 0x3#4, 0x4#4, 0x5#4, 0x6#4, 0x7#4, 0xE#4] := by
  revert n
  decide

/-- A word with a major opcode other than 0 is neither CLS nor RET. -/
theorem ne_cls_ret_of_major {w : Word} (h : w.extractLsb' 12 4 ≠ 0x0#4) : w ≠ 0x00E0#16 ∧ w ≠ 0x00EE#16 := by
  constructor
  · rintro rfl
    exact h rfl
  · rintro rfl
    exact h rfl

/-- Settles O4: by its mask a row speaks of the major opcode and of the last nibble or the low byte; for each of the
sixteen major opcodes, what its rows leave out is what the list gives. -/
theorem illegalWordsAreTheListedOnes : Obligations.IllegalWordsAreTheListedOnes := by
  intro w
  rw [decode_eq_none_iff, mem_unlisted_of_major8_iff]
  simp (disch := decide) only [opcodeTable, opcodeRowsLow, opcodeRowsReg, opcodeRowsMid, opcodeRowsF,
    List.forall_mem_append, List.forall_mem_cons, ne_eq, and_fullMask_eq_iff, and_opMask_eq_iff,
    and_opNibbleMask_eq_iff, and_opByteMask_eq_iff, opField, nField, nnField]
  have hfixed := ne_cls_ret_of_major (w := w)
  have hmajor := nibble_mem (w.extractLsb' 12 4)
  generalize w.extractLsb' 12 4 = o at *
  simp only [List.mem_cons, List.not_mem_nil, or_false] at hmajor
  rcases hmajor with rfl | rfl | rfl | rfl | rfl | rfl | rfl | rfl | rfl | rfl | rfl | rfl | rfl | rfl | rfl | rfl <;>
    simp [hfixed]

/-- Settles O5: the sample words are evaluated on the table. -/
theorem sampleWordsDecodeAsWrittenOut : Obligations.SampleWordsDecodeAsWrittenOut := by
  unfold Obligations.SampleWordsDecodeAsWrittenOut
  decide

end Sys2Proof
end

section
/-! PROOFS. What an instruction does, spec 10_state.md R38 and 60_exceptions.md R200 to R204: it raises its own fault,
or it completes and changes only what the access table gives it; and the tick around it, 30_encoding.md R79. -/

namespace Sys2Proof.Machine

/-! ### Frames -/

theorem Component.Same.trans {c : Component} {s t u : State} (h : c.Same s t) (h' : c.Same t u) : c.Same s u := by
  cases c <;> exact Eq.trans h' h

/-- A frame may name more components than change. -/
theorem UnchangedExcept.mono {P Q : Component → Prop} {s t : State} (h : UnchangedExcept P s t)
    (hPQ : ∀ c, P c → Q c) : UnchangedExcept Q s t :=
  fun c hc => h c fun hP => hc (hPQ c hP)

/-- One change after another changes what either changes. -/
theorem UnchangedExcept.trans {P Q : Component → Prop} {s t u : State} (h : UnchangedExcept P s t)
    (h' : UnchangedExcept Q t u) : UnchangedExcept (fun c => P c ∨ Q c) s u :=
  fun c hc => (h c fun hP => hc (.inl hP)).trans (h' c fun hQ => hc (.inr hQ))

/-- A result and a flag change the result's register and `V[F]` alone (R120). -/
theorem unchangedExcept_setResultFlag (s : State) (x : Reg) (r : Byte) (c : Bool) :
    UnchangedExcept (fun d => d = .v x ∨ d = .v VF) s (s.setResultFlag x r c) :=
  (unchangedExcept_setV s x r).trans (unchangedExcept_setV _ VF _)

/-- An assignment to `ST` changes `ST` alone. -/
theorem unchangedExcept_st (s : State) (b : Byte) : UnchangedExcept (fun c => c = .st) s { s with st := b } := by
  intro c hc
  cases c with
  | st => exact absurd rfl hc
  | _ => rfl

/-- A draw of the random input changes its counter alone. -/
theorem unchangedExcept_draws (s : State) (n : Nat) :
    UnchangedExcept (fun c => c = .draws) s { s with draws := n } := by
  intro c hc
  cases c with
  | draws => exact absurd rfl hc
  | _ => rfl

/-- A return changes `PC` and `SP` alone (R101). -/
theorem unchangedExcept_pc_sp (s : State) (a : Word) (p : Fin (Config.stackDepth + 1)) :
    UnchangedExcept (fun c => c = .pc ∨ c = .sp) s { s with pc := a, sp := p } := by
  intro c hc
  cases c with
  | pc => exact absurd (.inl rfl) hc
  | sp => exact absurd (.inr rfl) hc
  | _ => rfl

/-- Bytes stored change the bytes at their addresses alone (R59). -/
theorem unchangedExcept_writeBytes (s : State) (a : Nat) (bs : List Byte) :
    UnchangedExcept (fun c => ∃ b, c = .mem b ∧ a ≤ b ∧ b < a + bs.length) s
      { s with mem := s.mem.writeBytes a bs } := by
  intro c hc
  cases c with
  | mem b =>
    have hout : b < a ∨ a + bs.length ≤ b := by
      by_contra hin
      exact hc ⟨b, rfl, by omega, by omega⟩
    exact Memory.read_writeBytes_other bs hout
  | _ => rfl

/-- FX65's loop changes the registers up to `Vx` alone (R156). -/
theorem unchangedExcept_loadRegs (s : State) (base : Nat) (x : Reg) :
    UnchangedExcept (fun c => ∃ k, c = .v k ∧ k ≤ x) s { s with v := loadRegs s.mem base (x.val + 1) s.v } := by
  intro c hc
  cases c with
  | v k =>
    have hk : ¬ k.val < x.val + 1 := fun hlt => hc ⟨k, rfl, Nat.lt_succ_iff.mp hlt⟩
    exact (loadRegs_getElem s.mem base s.v (x.val + 1) k.val k.isLt).trans (if_neg hk)
  | _ => rfl

/-- A draw changes display cells and `V[F]` alone (R171). -/
theorem unchangedExcept_drawn (s : State) (x y : Reg) (n : Nat) :
    UnchangedExcept (fun c => c = .v VF ∨ ∃ px py, c = .fb px py) s (s.drawn x y n) :=
  ((unchangedExcept_fb s _).trans (unchangedExcept_setV _ VF _)).mono fun _ => Or.symm

/-! ### Instructions that may raise, where they complete -/

/-- A range of addresses in memory passes the check of R150. -/
theorem State.indexed_of_lt {s : State} {kmax : Nat} (h : s.i.toNat + kmax < 4096) (t : State) :
    s.indexed kmax t = .next t := by
  obtain ⟨-, hok⟩ | ⟨hge, -⟩ := s.indexed_cases kmax t
  · exact hok
  · omega

/-- A range of addresses that leaves memory fails the check of R150. -/
theorem State.indexed_of_ge {s : State} {kmax : Nat} (h : 4096 ≤ s.i.toNat + kmax) (t : State) :
    s.indexed kmax t = raise (.memOutOfBounds (max s.i.toNat 4096)) s := by
  obtain ⟨hlt, -⟩ | ⟨-, hraise⟩ := s.indexed_cases kmax t
  · omega
  · exact hraise

/-- 00EE with a return address on the stack (R101). -/
theorem exec_ret_of_pos {s : State} (h : 0 < s.sp.val) : ∃ a p, exec .ret s = .next { s with pc := a, sp := p } ∧
    s.stk[s.sp.val - 1]? = some a ∧ p.val = s.sp.val - 1 := by
  obtain ⟨hzero, -⟩ | ⟨-, a, t, hpop, hslot, hsp, ht⟩ := s.pop_cases
  · omega
  · refine ⟨a, t.sp, ?_, hslot, hsp⟩
    simp only [exec, execRet, hpop]
    rw [ht]
    rfl

/-- 2NNN with a free slot on the stack (R103). -/
theorem exec_call_of_lt (nnn : BitVec 12) {s : State} (h : s.sp.val < 16) : ∃ stk p,
    exec (.call nnn) s = .next { s with pc := nnn.setWidth 16, stk := stk, sp := p } ∧
    (∀ k : Nat, stk[k]? = if k = s.sp.val then some s.pc else s.stk[k]?) ∧ p.val = s.sp.val + 1 := by
  obtain ⟨hfull, -⟩ | ⟨-, t, hpush, hsp, hstk, ht⟩ := s.push_cases s.pc
  · omega
  · refine ⟨t.stk, t.sp, ?_, hstk, hsp⟩
    simp only [exec, execCall, hpush]
    rw [ht]
    rfl

/-- DXYN with its rows in memory, or with none (R171). -/
theorem exec_drw_of_lt {s : State} (x y : Reg) {n : Nat} (h : n = 0 ∨ s.i.toNat + n - 1 < 4096) :
    exec (.drw x y n) s = .next (s.drawn x y n) := by
  cases n with
  | zero => rfl
  | succ k => exact State.indexed_of_lt (by omega) _

/-- FX33 with its three bytes in memory (R154). -/
theorem exec_ldB_of_lt {s : State} (x : Reg) (h : s.i.toNat + 2 < 4096) :
    exec (.ldB x) s = .next (s.storeAtI (decimalDigits (s.getV x))) := State.indexed_of_lt h _

/-- FX55 with its bytes in memory (R155). -/
theorem exec_ldMemVx_of_lt {s : State} {x : Reg} (h : s.i.toNat + x.val < 4096) :
    exec (.ldMemVx x) s = .next (s.storeAtI (s.regsUpTo x)) := State.indexed_of_lt h _

/-- FX65 with its bytes in memory (R156). -/
theorem exec_ldVxMem_of_lt {s : State} {x : Reg} (h : s.i.toNat + x.val < 4096) :
    exec (.ldVxMem x) s = .next { s with v := loadRegs s.mem (s.ea 0) (x.val + 1) s.v } := State.indexed_of_lt h _

/-- A value below 16 names the key of that number (R180). -/
theorem keyOf_eq_some {b : Byte} {k : Key} (h : b.toNat = k.val) : keyOf b = some k := by
  obtain ⟨hge, -⟩ | ⟨j, hj, hsome⟩ := keyOf_cases b
  · exact absurd k.isLt (by simp only [Config.nKeys]; omega)
  · rw [hsome, Fin.ext (hj.trans h)]

/-- A value of 16 or more names no key (R180). -/
theorem keyOf_eq_none {b : Byte} (h : 16 ≤ b.toNat) : keyOf b = none := by
  obtain ⟨-, hnone⟩ | ⟨k, hk, -⟩ := keyOf_cases b
  · exact hnone
  · exact absurd k.isLt (by simp only [Config.nKeys]; omega)

/-- EX9E with a key index in `Vx` (R180). -/
theorem exec_skp_of_key {s : State} {x : Reg} {k : Key} (h : (s.getV x).toNat = k.val) :
    exec (.skp x) s = .next (s.setPc (if s.keyDown k = true then s.pc + 2 else s.pc)) := by
  simp only [exec, execSkp, keyOf_eq_some h, State.skipIf_eq]

/-- EXA1 with a key index in `Vx` (R181). -/
theorem exec_sknp_of_key {s : State} {x : Reg} {k : Key} (h : (s.getV x).toNat = k.val) :
    exec (.sknp x) s = .next (s.setPc (if s.keyDown k = true then s.pc else s.pc + 2)) := by
  simp only [exec, execSknp, keyOf_eq_some h, State.skipIf_eq]
  cases s.keyDown k <;> rfl

/-! ### Raising -/

/-- An instruction raises the fault that the taxonomy gives it (R200, R201). -/
theorem exec_of_ownFault {i : Instr} {s : State} {e : Fault} (h : OwnFault i s = some e) : exec i s = raise e s := by
  cases i with
  | ret =>
    obtain ⟨hzero, rfl⟩ : s.sp.val = 0 ∧ .stackUnderflow = e := by simpa [OwnFault] using h
    obtain ⟨-, hpop⟩ | ⟨hpos, -⟩ := s.pop_cases
    · simp only [exec, execRet, hpop]
    · omega
  | call nnn =>
    obtain ⟨hfull, rfl⟩ : s.sp.val = 16 ∧ .stackOverflow = e := by simpa [OwnFault] using h
    obtain ⟨-, hpush⟩ | ⟨hlt, -⟩ := s.push_cases s.pc
    · simp only [exec, execCall, hpush]
    · omega
  | drw x y n =>
    obtain ⟨⟨hpos, hge⟩, rfl⟩ : (0 < n ∧ 4096 ≤ s.i.toNat + n - 1) ∧ .memOutOfBounds (max s.i.toNat 4096) = e := by
      simpa [OwnFault] using h
    obtain ⟨k, rfl⟩ : ∃ k, n = k + 1 := ⟨n - 1, by omega⟩
    exact State.indexed_of_ge (by omega) _
  | ldB x =>
    obtain ⟨hge, rfl⟩ : 4096 ≤ s.i.toNat + 2 ∧ .memOutOfBounds (max s.i.toNat 4096) = e := by
      simpa [OwnFault] using h
    exact State.indexed_of_ge hge _
  | ldMemVx x | ldVxMem x =>
    obtain ⟨hge, rfl⟩ : 4096 ≤ s.i.toNat + x.val ∧ .memOutOfBounds (max s.i.toNat 4096) = e := by
      simpa [OwnFault] using h
    exact State.indexed_of_ge hge _
  | skp x | sknp x =>
    obtain ⟨hge, rfl⟩ : 16 ≤ (s.getV x).toNat ∧ .keyIndexOutOfRange (s.getV x) = e := by
      simpa [OwnFault] using h
    simp only [exec, execSkp, execSknp, keyOf_eq_none hge]
  | _ => cases h

/-- Settles O13: raising takes the fault, which changes `FAULT`, `PC` and `STARTED` alone. -/
theorem raisingInstructionWritesNothing : Obligations.RaisingInstructionWritesNothing :=
  fun _ s e h => ⟨s.takeFault e s.pc0, exec_of_ownFault h, raised_takeFault e s⟩

/-! ### Completing -/

/-- A return that raises nothing has a return address (R101). -/
theorem sp_pos_of_ownFault {s : State} (h : OwnFault .ret s = none) : 0 < s.sp.val := by
  have hne : s.sp.val ≠ 0 := by simpa [OwnFault] using h
  omega

/-- A call that raises nothing has a free slot (R103). -/
theorem sp_lt_of_ownFault {nnn : BitVec 12} {s : State} (h : OwnFault (.call nnn) s = none) : s.sp.val < 16 := by
  have hne : s.sp.val ≠ 16 := by simpa [OwnFault] using h
  have hle : s.sp.val < 16 + 1 := s.sp.isLt
  omega

/-- A draw that raises nothing has its rows in memory, or none (R171). -/
theorem rows_in_memory_of_ownFault {x y : Reg} {n : Nat} {s : State} (h : OwnFault (.drw x y n) s = none) :
    n = 0 ∨ s.i.toNat + n - 1 < 4096 := by
  have hrows : 0 < n → s.i.toNat + n - 1 < 4096 := by simpa [OwnFault] using h
  omega

/-- An FX33 that raises nothing has its bytes in memory (R154). -/
theorem digits_in_memory_of_ownFault {x : Reg} {s : State} (h : OwnFault (.ldB x) s = none) :
    s.i.toNat + 2 < 4096 := by
  have hlt : s.i.toNat < 4094 := by simpa [OwnFault] using h
  omega

/-- An FX55 or FX65 that raises nothing has its bytes in memory (R155, R156). -/
theorem regs_in_memory_of_ownFault {x : Reg} {s : State} (h : OwnFault (.ldMemVx x) s = none) :
    s.i.toNat + x.val < 4096 := by
  simpa [OwnFault] using h

/-- A key skip that raises nothing names a key (R180, R181). -/
theorem exists_key_of_ownFault {x : Reg} {s : State} (h : OwnFault (.skp x) s = none) :
    ∃ k : Key, (s.getV x).toNat = k.val := by
  have hlt : (s.getV x).toNat < 16 := by simpa [OwnFault] using h
  exact ⟨⟨_, hlt⟩, rfl⟩

/-- The instructions that may leave `PC` elsewhere than after the fetch (R109, R182). -/
def TransfersControl : Instr → Prop
  | .jp _ | .call _ | .jpV0 _ | .ret | .ldVxK _ => True
  | .seImm _ _ | .sneImm _ _ | .seReg _ _ | .sneReg _ _ | .skp _ | .sknp _ => True
  | _ => False

/-- What an instruction that raises nothing may change: what the access table gives it, and `PC` if it transfers control
(R38, R109). -/
def CompletionWrites (i : Instr) (s : State) (c : Component) : Prop :=
  match c with
  | .pc => TransfersControl i
  | .fault | .started => False
  | c => WrittenBy i s c

/-- An instruction to which the taxonomy gives no fault completes: it changes no more than it may, and bytes that it
stores lie in memory, which stays canonical. -/
theorem exec_completes {i : Instr} {s : State} (h : OwnFault i s = none) :
    ∃ t, exec i s = .next t ∧ UnchangedExcept (CompletionWrites i s) s t ∧ (s.mem.wf = true → t.mem.wf = true) := by
  cases i with
  | cls => exact ⟨_, exec_cls s, (unchangedExcept_fb s _).mono (by rintro _ ⟨px, py, rfl⟩; exact .inl rfl), id⟩
  | ret =>
    obtain ⟨a, p, hexec, -, -⟩ := exec_ret_of_pos (sp_pos_of_ownFault h)
    refine ⟨_, hexec, (unchangedExcept_pc_sp s a p).mono ?_, id⟩
    rintro _ (rfl | rfl)
    · trivial
    · exact .inr rfl
  | call nnn =>
    obtain ⟨stk, p, hexec, hstk, -⟩ := exec_call_of_lt nnn (sp_lt_of_ownFault h)
    refine ⟨_, hexec, fun c hc => ?_, id⟩
    cases c with
    | pc => exact absurd trivial hc
    | sp => exact absurd (.inl ⟨nnn, rfl⟩) hc
    | stk k =>
      have hne : k.val ≠ s.sp.val := fun heq => hc ⟨⟨nnn, rfl⟩, heq⟩
      simpa [Component.Same, hne] using hstk k.val
    | _ => rfl
  | drw x y n =>
    refine ⟨_, exec_drw_of_lt x y (rows_in_memory_of_ownFault h), (unchangedExcept_drawn s x y n).mono ?_, id⟩
    rintro _ (rfl | ⟨px, py, rfl⟩)
    · rfl
    · exact .inr ⟨x, y, n, rfl⟩
  | ldB x =>
    have hfit := digits_in_memory_of_ownFault h
    refine ⟨_, exec_ldB_of_lt x hfit, (unchangedExcept_writeBytes s _ _).mono ?_, ?_⟩
    · rintro _ ⟨a, rfl, hlo, hhi⟩
      exact ⟨hlo, Nat.lt_succ_iff.mp hhi⟩
    · exact fun hm => Memory.wf_writeBytes _ hm hfit
  | ldMemVx x =>
    have hfit := regs_in_memory_of_ownFault h
    have hlen := s.regsUpTo_length x
    refine ⟨_, exec_ldMemVx_of_lt hfit, (unchangedExcept_writeBytes s _ _).mono ?_, ?_⟩
    · rintro _ ⟨a, rfl, hlo, hhi⟩
      rw [hlen] at hhi
      exact ⟨hlo, Nat.lt_succ_iff.mp hhi⟩
    · exact fun hm => Memory.wf_writeBytes _ hm (by rw [hlen]; exact hfit)
  | ldVxMem x =>
    refine ⟨_, exec_ldVxMem_of_lt (regs_in_memory_of_ownFault h), (unchangedExcept_loadRegs s _ x).mono ?_, id⟩
    rintro _ ⟨k, rfl, hle⟩
    exact hle
  | skp x =>
    obtain ⟨k, hk⟩ := exists_key_of_ownFault h
    exact ⟨_, exec_skp_of_key hk, (unchangedExcept_setPc s _).mono (by rintro _ rfl; trivial), id⟩
  | sknp x =>
    obtain ⟨k, hk⟩ := exists_key_of_ownFault h
    exact ⟨_, exec_sknp_of_key hk, (unchangedExcept_setPc s _).mono (by rintro _ rfl; trivial), id⟩
  | ldVxK x =>
    cases hkey : s.lowestKey with
    | some k => exact ⟨_, exec_ldVxK_of_some x hkey, (unchangedExcept_setV s x _).mono (by rintro _ rfl; rfl), id⟩
    | none => exact ⟨_, exec_ldVxK_of_none x hkey, (unchangedExcept_setPc s _).mono (by rintro _ rfl; trivial), id⟩
  | rnd x nn =>
    refine ⟨_, rfl, ((unchangedExcept_draws s _).trans (unchangedExcept_setV _ x _)).mono ?_, id⟩
    rintro _ (rfl | rfl)
    · exact ⟨x, nn, rfl⟩
    · rfl
  | addReg x | sub x | shr x | subn x | shl x =>
    refine ⟨_, rfl, (unchangedExcept_setResultFlag s x _ _).mono ?_, id⟩
    rintro _ (rfl | rfl)
    · exact .inl rfl
    · exact .inr rfl
  | ldImm x | addImm x | ldReg x | orReg x | andReg x | xorReg x | ldVxDt x =>
    exact ⟨_, rfl, (unchangedExcept_setV s x _).mono (by rintro _ rfl; rfl), id⟩
  | seImm x nn => exact ⟨_, exec_seImm x nn s, (unchangedExcept_setPc s _).mono (by rintro _ rfl; trivial), id⟩
  | sneImm x nn => exact ⟨_, exec_sneImm x nn s, (unchangedExcept_setPc s _).mono (by rintro _ rfl; trivial), id⟩
  | seReg x y => exact ⟨_, exec_seReg x y s, (unchangedExcept_setPc s _).mono (by rintro _ rfl; trivial), id⟩
  | sneReg x y => exact ⟨_, exec_sneReg x y s, (unchangedExcept_setPc s _).mono (by rintro _ rfl; trivial), id⟩
  | jp | jpV0 => exact ⟨_, rfl, (unchangedExcept_setPc s _).mono (by rintro _ rfl; trivial), id⟩
  | ldI nnn => exact ⟨_, rfl, (unchangedExcept_setI s _).mono (by rintro _ rfl; exact .inl ⟨nnn, rfl⟩), id⟩
  | addI x => exact ⟨_, rfl, (unchangedExcept_setI s _).mono (by rintro _ rfl; exact .inr (.inl ⟨x, rfl⟩)), id⟩
  | ldF x => exact ⟨_, rfl, (unchangedExcept_setI s _).mono (by rintro _ rfl; exact .inr (.inr ⟨x, rfl⟩)), id⟩
  | ldDtVx x => exact ⟨_, rfl, (unchangedExcept_dt s _).mono (by rintro _ rfl; exact ⟨x, rfl⟩), id⟩
  | ldStVx x => exact ⟨_, rfl, (unchangedExcept_st s _).mono (by rintro _ rfl; exact ⟨x, rfl⟩), id⟩

/-- What is known of the state that an instruction leaves when it raises nothing. -/
theorem frame_of_exec {i : Instr} {s t : State} (hown : OwnFault i s = none) (h : exec i s = .next t) :
    UnchangedExcept (CompletionWrites i s) s t ∧ (s.mem.wf = true → t.mem.wf = true) := by
  obtain ⟨u, hexec, hu⟩ := exec_completes hown
  cases hexec.symm.trans h
  exact hu

/-- Everything an instruction can do: raise its own fault, or complete (R201). -/
theorem exec_cases (i : Instr) (s : State) :
    (∃ e, OwnFault i s = some e ∧ exec i s = .next (s.takeFault e s.pc0)) ∨
    (OwnFault i s = none ∧ ∃ t, exec i s = .next t ∧ UnchangedExcept (CompletionWrites i s) s t) := by
  cases h : OwnFault i s with
  | some e => exact .inl ⟨e, rfl, exec_of_ownFault h⟩
  | none =>
    obtain ⟨t, hexec, hframe, -⟩ := exec_completes h
    exact .inr ⟨rfl, t, hexec, hframe⟩

/-- Settles O12: an instruction raises its own fault with `pc0`, or completes and leaves the latch as it was. -/
theorem instructionsRaiseExactlyTheirOwnFaults : Obligations.InstructionsRaiseExactlyTheirOwnFaults := by
  intro i s hf
  obtain ⟨e, hown, hexec⟩ | ⟨hown, t, hexec, hframe⟩ := exec_cases i s
  · exact ⟨s.takeFault e s.pc0, hexec, by rw [hown]; rfl⟩
  · have hlatch : t.fault = s.fault := hframe .fault id
    exact ⟨t, hexec, by rw [hlatch, hf, hown]; rfl⟩

/-- Settles O17: raising changes `PC`, `FAULT` and `STARTED` alone, which belong to the tick; completing changes no more
than the access table gives. -/
theorem instructionsWriteOnlyWhatTheAccessTableGives : Obligations.InstructionsWriteOnlyWhatTheAccessTableGives := by
  intro i s t h c hc
  obtain ⟨e, -, hexec⟩ | ⟨-, u, hexec, hframe⟩ := exec_cases i s
  · cases hexec.symm.trans h
    obtain ⟨-, -, -, hframe⟩ := raised_takeFault e s
    refine hframe c ?_
    rintro (rfl | rfl | rfl) <;> exact hc trivial
  · cases hexec.symm.trans h
    refine hframe c fun hw => hc ?_
    cases c with
    | pc | fault | started => trivial
    | _ => exact hw

/-! ### The tick -/

/-- A tick with a word at `PC` that decodes (R79). -/
theorem step_of_decode {s : State} {w : Word} {i : Instr} (hf : s.fault = none) (hw : s.fetch = some w)
    (hd : decode w = some i) : step s = exec i s.afterFetch := by
  obtain ⟨r, hr, -⟩ | ⟨-, hnone, -⟩ | ⟨w', -, hsome, hnone, -⟩ | ⟨w', i', -, hsome, hd', hstep⟩ := tick_cases s
  · simp [hf] at hr
  · simp [hw] at hnone
  · cases hw.symm.trans hsome
    simp [hd] at hnone
  · cases hw.symm.trans hsome
    cases hd.symm.trans hd'
    exact hstep

/-- A tick with a word at `PC` that does not decode (R76, R79). -/
theorem step_of_illegal {s : State} {w : Word} (hf : s.fault = none) (hw : s.fetch = some w) (hd : decode w = none) :
    step s = .next (s.takeFault (.illegalInstruction w) s.pc) := by
  obtain ⟨r, hr, -⟩ | ⟨-, hnone, -⟩ | ⟨w', -, hsome, -, hstep⟩ | ⟨w', i', -, hsome, hd', -⟩ := tick_cases s
  · simp [hf] at hr
  · simp [hw] at hnone
  · cases hw.symm.trans hsome
    exact hstep
  · cases hw.symm.trans hsome
    simp [hd] at hd'

/-- A tick of a faulted core (R78, R204). -/
theorem step_of_faulted {s : State} {r : FaultRecord} (hf : s.fault = some r) : step s = .next s := by
  obtain ⟨-, -, hstep⟩ | ⟨hnone, -⟩ | ⟨w, hnone, -⟩ | ⟨w, i, hnone, -⟩ := tick_cases s
  · exact hstep
  all_goals simp [hf] at hnone

/-- An instruction that raises undoes the fetch's advance of `PC` (R203). -/
theorem State.takeFault_afterFetch (s : State) (e : Fault) :
    s.afterFetch.takeFault e s.afterFetch.pc0 = s.takeFault e s.pc := by
  rw [State.pc0_afterFetch]
  rfl

/-- Settles O6: the fetch gives the two bytes, and the state after the fetch is the one given. -/
theorem stepRunsTheDecodedInstruction : Obligations.StepRunsTheDecodedInstruction :=
  fun _ _ hf hpc hd => step_of_decode hf (State.fetch_eq_some.mpr ⟨hpc, rfl⟩) hd

/-- Settles O8: the tick takes the decode's fault at the word's address. -/
theorem illegalWordIsRecordedWithItsAddress : Obligations.IllegalWordIsRecordedWithItsAddress :=
  fun _ _ hf hw hd => step_of_illegal hf hw hd

/-- Settles O9: the tick of a faulted core changes nothing, so it answers the record that is still latched. -/
theorem faultedTickRepeatsTheError : Obligations.FaultedTickRepeatsTheError := by
  intro s r hf
  have hstep : step s = .next s := step_of_faulted hf
  have hresp : s.tickResponse = .errFault r := by simp only [State.tickResponse, hf]
  refine ⟨hstep, ?_⟩
  rw [perform_tick_of_step hstep, hresp, Reply.plain]

/-- Everything a tick can do: nothing in a faulted core; take a fault at `PC`; or run an instruction that completes
(R79, R203). -/
theorem step_cases (s : State) :
    (s.fault ≠ none ∧ step s = .next s) ∨
    (s.fault = none ∧ ∃ e, step s = .next (s.takeFault e s.pc)) ∨
    (s.fault = none ∧ ∃ w i t, s.fetch = some w ∧ decode w = some i ∧ OwnFault i s.afterFetch = none ∧
      exec i s.afterFetch = .next t ∧ step s = .next t) := by
  obtain ⟨r, hf, hstep⟩ | ⟨hf, -, hstep⟩ | ⟨w, hf, -, -, hstep⟩ | ⟨w, i, hf, hw, hd, hstep⟩ := tick_cases s
  · exact .inl ⟨by simp [hf], hstep⟩
  · exact .inr (.inl ⟨hf, _, hstep⟩)
  · exact .inr (.inl ⟨hf, _, hstep⟩)
  · obtain ⟨e, -, hexec⟩ | ⟨hown, t, hexec, -⟩ := exec_cases i s.afterFetch
    · rw [State.takeFault_afterFetch] at hexec
      exact .inr (.inl ⟨hf, e, hstep.trans hexec⟩)
    · exact .inr (.inr ⟨hf, w, i, t, hw, hd, hown, hexec, hstep.trans hexec⟩)

/-- Settles O11: a tick changes nothing, takes a fault or runs an instruction that completes; each is a next state. -/
theorem everyTickAnswersANextState : Obligations.EveryTickAnswersANextState := by
  intro s
  obtain ⟨-, hstep⟩ | ⟨-, e, hstep⟩ | ⟨-, w, i, t, -, -, -, -, hstep⟩ := step_cases s
  · exact ⟨_, hstep⟩
  · exact ⟨_, hstep⟩
  · exact ⟨_, hstep⟩

/-- An instruction that completes leaves the latch and `STARTED` alone. -/
theorem latch_of_exec_completes {i : Instr} {s t : State} (hown : OwnFault i s = none) (h : exec i s = .next t) :
    t.fault = s.fault ∧ t.started = s.started := by
  obtain ⟨hframe, -⟩ := frame_of_exec hown h
  exact ⟨hframe .fault id, hframe .started id⟩

/-- Settles O10: a tick of a healthy core that leaves a fault latched has taken it at `PC`, since an instruction that
completes leaves the latch empty. -/
theorem faultingTickCommitsNothing : Obligations.FaultingTickCommitsNothing := by
  intro s t hf h hlatched
  obtain ⟨hne, -⟩ | ⟨-, e, hstep⟩ | ⟨-, w, i, u, -, -, hown, hexec, hstep⟩ := step_cases s
  · exact absurd hf hne
  · cases hstep.symm.trans h
    exact ⟨rfl, e, rfl⟩
  · cases hstep.symm.trans h
    exact absurd ((latch_of_exec_completes hown hexec).1.trans hf) hlatched

end Sys2Proof.Machine
end

section
/-! PROOFS. ALU with flags, spec 41_alu.md: the logic operations of R124 to R126, the sum, differences and shifts of
R127 to R131, whose flag is written last (R120), and the masked random byte of R132. -/

namespace Sys2Proof.Machine

/-! ### Flags -/

/-- What is left to say of an instruction once it is known to write a result and a flag: with `x = F` the flag stays
(R120). -/
theorem exec_assigns_result_and_flag {i : Instr} {s : State} {x : Reg} {r : Byte} {c : Bool}
    (h : exec i s = .next (s.setResultFlag x r c)) : ∃ t, exec i s = .next t ∧ (x ≠ VF → t.getV x = r) ∧
      t.getV VF = flagByte c ∧ UnchangedExcept (fun d => d = .v x ∨ d = .v VF) s t := by
  refine ⟨_, h, fun hx => ?_, ?_, unchangedExcept_setResultFlag s x r c⟩
  · rw [State.getV_setResultFlag, if_neg hx, if_pos rfl]
  · rw [State.getV_setResultFlag, if_pos rfl]

theorem flagByte_decide (p : Prop) [Decidable p] : flagByte (decide p) = if p then 1 else 0 := by
  simp only [flagByte, decide_eq_true_eq]

/-- The flag of a right shift is the value modulo 2 (R129). -/
theorem toNat_flagByte_lowBit (b : Byte) : (flagByte (lowBit b)).toNat = b.toNat % 2 := by
  rw [lowBit, BitVec.getLsbD, Nat.testBit_zero, flagByte_decide]
  split <;> simp <;> omega

/-- The flag of a left shift is the value divided by 128 (R131). -/
theorem toNat_flagByte_highBit (b : Byte) : (flagByte (highBit b)).toNat = b.toNat / 128 := by
  have hlt : b.toNat < 256 := b.isLt
  rw [highBit, BitVec.getLsbD, Nat.testBit_eq_decide_div_mod_eq, flagByte_decide]
  split <;> simp <;> omega

/-- A difference of bytes is the difference modulo 256. -/
theorem toNat_sub_byte (a b : Byte) : (a - b).toNat = (a.toNat + 256 - b.toNat) % 256 := by
  have hlt : b.toNat < 256 := b.isLt
  rw [BitVec.toNat_sub]
  omega

/-! ### Instructions -/

/-- 8XY1 (R124). -/
theorem exec_orReg (x y : Reg) (s : State) : exec (.orReg x y) s = .next (s.setV x (s.getV x ||| s.getV y)) := rfl

/-- 8XY2 (R125). -/
theorem exec_andReg (x y : Reg) (s : State) : exec (.andReg x y) s = .next (s.setV x (s.getV x &&& s.getV y)) := rfl

/-- 8XY3 (R126). -/
theorem exec_xorReg (x y : Reg) (s : State) : exec (.xorReg x y) s = .next (s.setV x (s.getV x ^^^ s.getV y)) := rfl

/-- 8XY4 (R127). -/
theorem exec_addReg (x y : Reg) (s : State) : exec (.addReg x y) s =
    .next (s.setResultFlag x (s.getV x + s.getV y) (carryOut (s.getV x) (s.getV y))) := rfl

/-- 8XY5 (R128). -/
theorem exec_sub (x y : Reg) (s : State) : exec (.sub x y) s =
    .next (s.setResultFlag x (s.getV x - s.getV y) (notBorrow (s.getV x) (s.getV y))) := rfl

/-- 8XY7 (R130). -/
theorem exec_subn (x y : Reg) (s : State) : exec (.subn x y) s =
    .next (s.setResultFlag x (s.getV y - s.getV x) (notBorrow (s.getV y) (s.getV x))) := rfl

/-- 8XY6 (R129). -/
theorem exec_shr (x y : Reg) (s : State) : exec (.shr x y) s =
    .next (s.setResultFlag x (s.getV x >>> 1) (lowBit (s.getV x))) := rfl

/-- 8XYE (R131). -/
theorem exec_shl (x y : Reg) (s : State) : exec (.shl x y) s =
    .next (s.setResultFlag x (s.getV x <<< 1) (highBit (s.getV x))) := rfl

/-- CXNN (R132). -/
theorem exec_rnd (x : Reg) (nn : Byte) (s : State) : exec (.rnd x nn) s =
    .next ({ s with draws := s.draws + 1 }.setV x (Config.rnd s.draws &&& nn)) := rfl

/-- Settles O35: each assigns `V[x]` and nothing else, and a bit of the result is the operation on the two bits. -/
theorem logicOperationsActBitByBit : Obligations.LogicOperationsActBitByBit := by
  intro x y s
  refine ⟨?or, ?and, ?xor⟩
  case or =>
    obtain ⟨t, hexec, hval, hframe⟩ := exec_assigns_v_alone (exec_orReg x y s)
    exact ⟨t, hexec, hframe, fun k => by rw [hval, BitVec.getLsbD_or]⟩
  case and =>
    obtain ⟨t, hexec, hval, hframe⟩ := exec_assigns_v_alone (exec_andReg x y s)
    exact ⟨t, hexec, hframe, fun k => by rw [hval, BitVec.getLsbD_and]⟩
  case xor =>
    obtain ⟨t, hexec, hval, hframe⟩ := exec_assigns_v_alone (exec_xorReg x y s)
    exact ⟨t, hexec, hframe, fun k => by rw [hval, BitVec.getLsbD_xor]⟩

/-- Settles O36: the byte sum is the sum modulo 256, and the flag written after it is the carry. -/
theorem addSetsTheCarry : Obligations.AddSetsTheCarry := by
  intro x y s
  obtain ⟨t, hexec, hval, hflag, hframe⟩ := exec_assigns_result_and_flag (exec_addReg x y s)
  exact ⟨t, hexec, fun hx => by rw [hval hx, BitVec.toNat_add], hflag.trans (flagByte_decide _), hframe⟩

/-- Settles O37: the byte difference is the difference modulo 256, and the flag written after it is not-borrow. -/
theorem subtractionsSetNotBorrow : Obligations.SubtractionsSetNotBorrow := by
  intro x y s
  constructor
  · obtain ⟨t, hexec, hval, hflag, hframe⟩ := exec_assigns_result_and_flag (exec_sub x y s)
    exact ⟨t, hexec, fun hx => by rw [hval hx, toNat_sub_byte], hflag.trans (flagByte_decide _), hframe⟩
  · obtain ⟨t, hexec, hval, hflag, hframe⟩ := exec_assigns_result_and_flag (exec_subn x y s)
    exact ⟨t, hexec, fun hx => by rw [hval hx, toNat_sub_byte], hflag.trans (flagByte_decide _), hframe⟩

/-- Settles O38: a shift by one halves or doubles the byte, the flag written after it is the bit shifted out, and
neither reads `V[y]`. -/
theorem shiftsPutTheBitShiftedOutInTheFlag : Obligations.ShiftsPutTheBitShiftedOutInTheFlag := by
  intro x y s
  refine ⟨?right, ?left, fun y' => ⟨?rightIgnores, ?leftIgnores⟩⟩
  case right =>
    obtain ⟨t, hexec, hval, hflag, hframe⟩ := exec_assigns_result_and_flag (exec_shr x y s)
    refine ⟨t, hexec, fun hx => ?_, by rw [hflag, toNat_flagByte_lowBit], hframe⟩
    rw [hval hx, BitVec.toNat_ushiftRight, Nat.shiftRight_one]
  case left =>
    obtain ⟨t, hexec, hval, hflag, hframe⟩ := exec_assigns_result_and_flag (exec_shl x y s)
    refine ⟨t, hexec, fun hx => ?_, by rw [hflag, toNat_flagByte_highBit], hframe⟩
    rw [hval hx, BitVec.toNat_shiftLeft, Nat.shiftLeft_eq, Nat.pow_one]
  case rightIgnores => rw [exec_shr, exec_shr]
  case leftIgnores => rw [exec_shl, exec_shl]

/-- Settles O39: one draw is counted and `V[x]` is the byte of that draw under the mask, whose clear bits clear the
byte's. -/
theorem randomByteIsMasked : Obligations.RandomByteIsMasked := by
  intro x nn s
  have hval := State.getV_setV_same { s with draws := s.draws + 1 } x (Config.rnd s.draws &&& nn)
  refine ⟨_, exec_rnd x nn s, hval, fun k hk => ?_, rfl, ?_⟩
  · rw [hval, BitVec.getLsbD_and, hk, Bool.and_false]
  · exact ((unchangedExcept_draws s _).trans (unchangedExcept_setV _ x _)).mono fun _ => Or.symm

end Sys2Proof.Machine
end

section
/-! PROOFS. Calls, returns and the offset jump, spec 40_control_flow.md: R101, R103, R108. -/

namespace Sys2Proof.Machine

/-- What a fault of the taxonomy leaves of an instruction: raising, and nothing else (R203). -/
theorem exec_raises {i : Instr} {s : State} {e : Fault} (h : OwnFault i s = some e) :
    ∃ t, exec i s = .next t ∧ Raised e s t := raisingInstructionWritesNothing i s e h

/-- Settles O25: with a return address the return assigns `PC` and `SP` alone; without one it raises. -/
theorem returnPopsTheProgramCounter : Obligations.ReturnPopsTheProgramCounter := by
  refine ⟨decode_encode (i := .ret) rfl, fun s => ⟨fun hpos => ?_, fun hzero => ?_⟩⟩
  · obtain ⟨a, p, hexec, hslot, hp⟩ := exec_ret_of_pos hpos
    exact ⟨_, hexec, hp, hslot, unchangedExcept_pc_sp s a p⟩
  · exact exec_raises (if_pos hzero)

/-- Settles O27: with a free slot the call fills it, counts it and assigns `PC`; without one it raises. -/
theorem callPushesTheFetchedProgramCounter : Obligations.CallPushesTheFetchedProgramCounter := by
  refine fun nnn s => ⟨decode_encode (i := .call nnn) rfl, fun hlt => ?_, fun hfull => ?_⟩
  · obtain ⟨stk, p, hexec, hstk, hp⟩ := exec_call_of_lt nnn hlt
    refine ⟨_, hexec, (hstk _).trans (if_pos rfl), hp, rfl, fun c hc => ?_⟩
    cases c with
    | pc => exact absurd (.inl rfl) hc
    | sp => exact absurd (.inr (.inl rfl)) hc
    | stk k =>
      have hne : k.val ≠ s.sp.val := fun h => hc (.inr (.inr ⟨k, rfl, h⟩))
      simpa [Component.Same, hne] using hstk k.val
    | _ => rfl
  · exact exec_raises (if_pos hfull)

/-- Settles O28: the slot that the return pops is the one that the call filled with its `PC`. -/
theorem returnResumesAfterTheCall : Obligations.ReturnResumesAfterTheCall := by
  intro nnn s hlt
  obtain ⟨stk, p, hcall, hstk, hp⟩ := exec_call_of_lt nnn hlt
  refine ⟨_, hcall, fun u husp hustk => ?_⟩
  have hsp : u.sp.val = s.sp.val + 1 := (congrArg Fin.val husp).trans hp
  obtain ⟨a, q, hret, hslot, hq⟩ := exec_ret_of_pos (s := u) (by omega)
  have hpopped : some s.pc = some a := by
    rw [← hslot, hustk, hsp, Nat.add_sub_cancel]
    exact ((hstk _).trans (if_pos rfl)).symm
  exact ⟨_, hret, (Option.some.inj hpopped).symm, Fin.ext (by show q.val = s.sp.val; omega)⟩

/-- The target of BNNN is the exact sum, since a byte and a 12-bit address fit in a word (R108). -/
theorem State.toNat_offsetTarget (s : State) (nnn : BitVec 12) :
    (s.offsetTarget nnn).toNat = (s.getV 0).toNat + nnn.toNat := by
  have hbyte : (s.getV 0).toNat < 256 := (s.getV 0).isLt
  have haddr : nnn.toNat < 4096 := nnn.isLt
  rw [State.offsetTarget, addr16, BitVec.toNat_add, BitVec.toNat_setWidth_of_le (by decide),
    BitVec.toNat_setWidth_of_le (by decide)]
  omega

/-- BNNN (R108). -/
theorem exec_jpV0 (nnn : BitVec 12) (s : State) : exec (.jpV0 nnn) s = .next (s.setPc (s.offsetTarget nnn)) := rfl

/-- Settles O31: the jump assigns the exact sum to `PC` and nothing else; from 4095 on the next fetch gives no word. -/
theorem offsetJumpAddsVZeroExactly : Obligations.OffsetJumpAddsVZeroExactly := by
  refine fun nnn s => ⟨decode_encode (i := .jpV0 nnn) rfl, ?_⟩
  refine ⟨_, exec_jpV0 nnn s, s.toNat_offsetTarget nnn, unchangedExcept_setPc s _, fun hf hfar => ?_⟩
  have hnone : (s.setPc (s.offsetTarget nnn)).fetch = none := by
    rw [State.fetch_eq_none, State.setPc_pc, State.toNat_offsetTarget]
    omega
  exact step_of_fetch_none hf hnone

end Sys2Proof.Machine
end

section
/-! PROOFS. Memory and memory through `I`, spec 20_memory.md section 1 and 42_index_memory.md: canonical memories, the
glyph address of R153, the stores and loads of R154 to R156, and the range check of R150. -/

namespace Sys2Proof.Machine

/-! ### Canonical memories -/

/-- A canonical memory reads at its first address as no memory does whose cells all stand above it. -/
theorem Memory.read_first_ne {m m' : Memory} {k lo lo' : Nat} {b : Byte} (hm : Memory.wfFrom lo ((k, b) :: m) = true)
    (hm' : Memory.wfFrom lo' m' = true) (hk : k < lo') : Memory.read ((k, b) :: m) k ≠ m'.read k := by
  obtain ⟨-, -, hb, -⟩ := Memory.wfFrom_cons.mp hm
  rw [Memory.read_below hm' hk]
  simpa [Memory.read] using hb

/-- The cells of a canonical memory stand from its first address on. -/
theorem Memory.wfFrom_first {m : Memory} {k lo : Nat} {b : Byte} (hm : Memory.wfFrom lo ((k, b) :: m) = true) :
    Memory.wfFrom k ((k, b) :: m) = true :=
  Memory.wfFrom_cons.mpr ⟨le_refl k, (Memory.wfFrom_cons.mp hm).2⟩

/-- Canonical memories that read alike have the same first cell, and so the same cells. -/
theorem Memory.eq_of_read_eq : ∀ {m m' : Memory} {lo : Nat}, Memory.wfFrom lo m = true → Memory.wfFrom lo m' = true →
    (∀ a, a < 4096 → m.read a = m'.read a) → m = m' := by
  intro m
  induction m with
  | nil =>
    intro m' lo _ hm' h
    cases m' with
    | nil => rfl
    | cons c m' =>
      obtain ⟨k, b⟩ := c
      obtain ⟨-, hk, -, -⟩ := Memory.wfFrom_cons.mp hm'
      exact absurd (h k hk).symm (Memory.read_first_ne hm' (lo' := k + 1) rfl (Nat.lt_succ_self k))
  | cons c m ih =>
    obtain ⟨k, b⟩ := c
    intro m' lo hm hm' h
    obtain ⟨-, hk, -, htail⟩ := Memory.wfFrom_cons.mp hm
    cases m' with
    | nil => exact absurd (h k hk) (Memory.read_first_ne hm (lo' := k + 1) rfl (Nat.lt_succ_self k))
    | cons c' m' =>
      obtain ⟨k', b'⟩ := c'
      obtain ⟨-, hk', -, htail'⟩ := Memory.wfFrom_cons.mp hm'
      obtain hlt | rfl | hgt := Nat.lt_trichotomy k k'
      · exact absurd (h k hk) (Memory.read_first_ne hm (Memory.wfFrom_first hm') hlt)
      · have hbyte : b = b' := by simpa [Memory.read] using h k hk
        have hrest : m = m' := by
          refine ih htail htail' fun a ha => ?_
          obtain hle | hlt := Nat.lt_or_ge k a |>.symm
          · rw [Memory.read_below htail (Nat.lt_succ_of_le hle), Memory.read_below htail' (Nat.lt_succ_of_le hle)]
          · simpa [Memory.read, Nat.ne_of_lt hlt] using h a ha
        rw [hbyte, hrest]
      · exact absurd (h k' hk').symm (Memory.read_first_ne hm' (Memory.wfFrom_first hm) hgt)

/-- Settles O23: canonical form from address 0 on is canonical form. -/
theorem canonicalMemoriesThatReadAlikeAreEqual : Obligations.CanonicalMemoriesThatReadAlikeAreEqual :=
  fun _ _ hm hm' h => Memory.eq_of_read_eq hm hm' h

/-! ### The glyph address -/

/-- FX29 (R153). -/
theorem exec_ldF (x : Reg) (s : State) : exec (.ldF x) s = .next (s.setI (glyphAddr (s.getV x))) := rfl

/-- The 80 bytes of the font (R53). -/
theorem length_font : Config.font.length = 80 := rfl

/-- Reset memory holds the font from address 0 on (R52, R230). -/
theorem read_reset_of_lt {a : Nat} (h : a < 80) : Config.font[a]? = some (State.reset.mem.read a) := by
  show _ = some (Memory.unlisted a)
  rw [Memory.unlisted_eq, List.getD_eq_getElem?_getD, List.getElem?_eq_getElem (by rwa [length_font]),
    Option.getD_some]

/-- Reset memory is 0 above the font (R230). -/
theorem read_reset_of_ge {a : Nat} (h : 80 ≤ a) : State.reset.mem.read a = 0 := by
  show Memory.unlisted a = 0
  rw [Memory.unlisted_eq, List.getD_eq_default _ _ (by rwa [length_font])]

/-- Settles O42: FX29 assigns the glyph address and nothing else, and the sixteen glyphs lie in the font's 80 bytes. -/
theorem glyphAddressIsFiveTimesVx : Obligations.GlyphAddressIsFiveTimesVx := by
  intro x s
  refine ⟨_, exec_ldF x s, toNat_glyphAddr _, unchangedExcept_setI s _, fun hdigit k hk => ?_⟩
  rw [State.setI_i, toNat_glyphAddr]
  exact read_reset_of_lt (by omega)

/-! ### Stores and loads through `I` -/

/-- Bytes stored at `I` in a canonical memory are read back at `I`, `I + 1` and so on (R157). -/
theorem State.read_storeAtI {s : State} {bs : List Byte} (hm : s.mem.wf = true) (hfit : s.i.toNat + bs.length ≤ 4096)
    {k : Nat} (hk : k < bs.length) : (s.storeAtI bs).mem.read (s.ea k) = bs[k] :=
  Memory.read_writeBytes bs hm (a := s.ea 0) hfit k hk

/-- FX55 leaves `V[k]` at `I + k` (R155). -/
theorem State.read_storeAtI_regsUpTo {s : State} {x k : Reg} (hm : s.mem.wf = true) (hfit : s.i.toNat + x.val < 4096)
    (hk : k ≤ x) : (s.storeAtI (s.regsUpTo x)).mem.read (s.ea k.val) = s.getV k := by
  have hlen := s.regsUpTo_length x
  rw [State.read_storeAtI hm (by omega) (by rw [hlen]; exact Nat.lt_succ_of_le hk), State.regsUpTo_getElem]
  rfl

/-- Settles O43: the three digits are stored at `I`, and a digit of a byte fits in a byte. -/
theorem decimalDigitsAreStoredAtI : Obligations.DecimalDigitsAreStoredAtI := by
  intro x s hm hfit
  have hlt : (s.getV x).toNat < 256 := (s.getV x).isLt
  have hread : ∀ k (hk : k < 3), (s.storeAtI (decimalDigits (s.getV x))).mem.read (s.ea k) =
      (decimalDigits (s.getV x))[k]'hk :=
    fun k hk => State.read_storeAtI (bs := decimalDigits (s.getV x)) hm hfit hk
  refine ⟨_, exec_ldB_of_lt x hfit, ?hundreds, ?tens, ?ones, (unchangedExcept_writeBytes s _ _).mono ?frame⟩
  case hundreds =>
    rw [hread 0 (by decide)]
    exact Nat.mod_eq_of_lt (by omega)
  case tens =>
    rw [hread 1 (by decide)]
    exact Nat.mod_eq_of_lt (by omega)
  case ones =>
    rw [hread 2 (by decide)]
    exact Nat.mod_eq_of_lt (by omega)
  case frame =>
    rintro _ ⟨a, rfl, hlo, hhi⟩
    exact ⟨a, rfl, hlo, Nat.lt_succ_iff.mp hhi⟩

/-- Settles O44: the registers up to `Vx` are stored at `I` one after the other. -/
theorem registersAreStoredFromI : Obligations.RegistersAreStoredFromI := by
  intro x s hm hfit
  refine ⟨_, exec_ldMemVx_of_lt hfit, fun k => State.read_storeAtI_regsUpTo hm hfit,
    (unchangedExcept_writeBytes s _ _).mono ?_⟩
  rintro _ ⟨a, rfl, hlo, hhi⟩
  rw [State.regsUpTo_length] at hhi
  exact ⟨a, rfl, hlo, Nat.lt_succ_iff.mp hhi⟩

/-- Settles O45: the loop's registers hold the bytes from `I` on. -/
theorem registersAreLoadedFromI : Obligations.RegistersAreLoadedFromI := by
  intro x s hfit
  refine ⟨_, exec_ldVxMem_of_lt hfit, fun k hk => ?_, unchangedExcept_loadRegs s _ x⟩
  exact (loadRegs_getElem s.mem (s.ea 0) s.v (x.val + 1) k.val k.isLt).trans (if_pos (Nat.lt_succ_of_le hk))

/-- Settles O46: an access that leaves memory is the instruction's own fault. -/
theorem indexedAccessBeyondMemoryRaises : Obligations.IndexedAccessBeyondMemoryRaises := by
  intro x y s
  refine ⟨fun hge => ?_, fun hge => ⟨?_, ?_⟩, fun n hn hge => ?_⟩
  · exact exec_raises (if_pos hge)
  · exact exec_raises (if_pos hge)
  · exact exec_raises (if_pos hge)
  · exact exec_raises (if_pos ⟨hn, hge⟩)

/-- Settles O24: `PC` is below the top of memory, and the two bytes fetched there are the registers stored there. -/
theorem storeOverCodeIsFetchedNext : Obligations.StoreOverCodeIsFetchedNext := by
  intro x s k hk hm hfit hpc
  refine ⟨_, exec_ldMemVx_of_lt hfit, State.fetch_eq_some.mpr ⟨?_, ?_⟩⟩
  · rw [State.storeAtI_pc]
    omega
  · have hx : x.val < 16 := x.isLt
    have hfirst : s.pc.toNat = s.ea k := hpc
    have hsecond : s.pc.toNat + 1 = s.ea (k + 1) := congrArg Nat.succ hpc
    rw [State.storeAtI_pc, hsecond, hfirst]
    exact congrArg₂ (· ++ ·)
      (State.read_storeAtI_regsUpTo (k := ⟨k, by show k < 16; omega⟩) hm hfit (Nat.le_of_succ_le hk))
      (State.read_storeAtI_regsUpTo (k := ⟨k + 1, by show k + 1 < 16; omega⟩) hm hfit hk)

end Sys2Proof.Machine
end

section
/-! PROOFS. Drawing, spec 43_display.md R171: the cells that a draw flips, the collision it reports, and the same draw
made twice. -/

namespace Sys2Proof.Machine

/-- The cells that the rows of a draw fall on are those the sprite covers (R171). -/
theorem rowsCover_iff_spriteCovers {s : State} {x y : Reg} {n : Nat} {px : Fin Config.dispW} {py : Fin Config.dispH} :
    RowsCover s.mem (s.ea 0) (s.getV x).toNat (s.getV y).toNat n px py ↔ SpriteCovers s x y n px py := by
  constructor
  · rintro ⟨r, hr, c, hc, hbit, rfl, rfl⟩
    exact ⟨r, c, hr, hc, hbit, rfl, rfl⟩
  · rintro ⟨r, c, hr, hc, hbit, hx, hy⟩
    exact ⟨r, hr, c, hc, hbit, Fin.ext hx, Fin.ext hy⟩

theorem flagByte_eq_one_iff {c : Bool} : flagByte c = 1 ↔ c = true := by cases c <;> decide

theorem flagByte_eq_zero_iff {c : Bool} : flagByte c = 0 ↔ ¬ c = true := by cases c <;> decide

/-- A draw flips the covered cells (R171). -/
theorem State.cell_drawn {s : State} {x y : Reg} {n : Nat} (hn : n < 16) (px : Fin Config.dispW)
    (py : Fin Config.dispH) : (s.drawn x y n).fb.cell px py = true ↔
      (s.fb.cell px py = true ↔ ¬ SpriteCovers s x y n px py) := by
  rw [← rowsCover_iff_spriteCovers]
  exact (drawSprite_spec _ _ _ _ _ n (Nat.le_of_lt hn)).1 px py

/-- The sprite of a draw covers a cell that is on (R171). -/
def Collides (s : State) (x y : Reg) (n : Nat) : Prop :=
  ∃ px py, s.fb.cell px py = true ∧ SpriteCovers s x y n px py

/-- A draw writes the collision to `V[F]` last (R120, R171). -/
theorem State.getV_drawn_flag {s : State} {x y : Reg} {n : Nat} (hn : n < 16) :
    ∃ c, (s.drawn x y n).getV VF = flagByte c ∧ (c = true ↔ Collides s x y n) := by
  refine ⟨_, State.getV_setV_same _ VF _, ?_⟩
  refine (drawSprite_spec _ _ _ _ _ n (Nat.le_of_lt hn)).2.trans ?_
  simp only [Bool.false_eq_true, false_or, rowsCover_iff_spriteCovers, Collides, and_comm]

/-- The flag of a draw is 1 exactly when the sprite collides (R171). -/
theorem State.getV_drawn_flag_eq_one_iff {s : State} {x y : Reg} {n : Nat} (hn : n < 16) :
    (s.drawn x y n).getV VF = 1 ↔ Collides s x y n := by
  obtain ⟨c, hflag, hc⟩ := State.getV_drawn_flag (s := s) (x := x) (y := y) hn
  rw [hflag, flagByte_eq_one_iff, hc]

/-- Settles O48: the draw flips the covered cells, and its flag is the collision. -/
theorem drawFlipsExactlyTheCoveredCells : Obligations.DrawFlipsExactlyTheCoveredCells := by
  intro x y n s hn hfit
  refine ⟨_, exec_drw_of_lt x y hfit, fun px py => ?cells, (State.getV_drawn_flag_eq_one_iff hn).mpr, fun hno => ?clear,
    unchangedExcept_drawn s x y n⟩
  case cells =>
    rw [State.cell_drawn hn]
    cases s.fb.cell px py <;> simp
  case clear =>
    obtain ⟨c, hflag, hc⟩ := State.getV_drawn_flag (s := s) (x := x) (y := y) hn
    rw [hflag, flagByte_eq_zero_iff, hc]
    exact hno

/-- Draws with the same coordinates, `I` and memory cover the same cells. -/
theorem spriteCovers_congr {s t : State} {x y x' y' : Reg} (hi : t.i = s.i) (hmem : t.mem = s.mem)
    (hx : t.getV x' = s.getV x) (hy : t.getV y' = s.getV y) (n : Nat) (px : Fin Config.dispW) (py : Fin Config.dispH) :
    SpriteCovers t x' y' n px py ↔ SpriteCovers s x y n px py := by
  simp only [SpriteCovers, hi, hmem, hx, hy]

/-- Settles O49: both draws cover the same cells; a cell flipped twice is as before, and a covered cell that is on after
the first draw is one that it turned on. -/
theorem drawingTwiceRestoresTheDisplay : Obligations.DrawingTwiceRestoresTheDisplay := by
  intro x y x' y' n s t t' u hn hown hfirst hfb hi hmem hx hy hsecond
  have hfit : n = 0 ∨ s.i.toNat + n - 1 < 4096 := rows_in_memory_of_ownFault hown
  cases (exec_drw_of_lt x y hfit).symm.trans hfirst
  cases (exec_drw_of_lt x' y' (by rwa [hi])).symm.trans hsecond
  have hcovers := spriteCovers_congr hi hmem hx hy n
  have hon : ∀ px py, t'.fb.cell px py = true ↔ (s.fb.cell px py = true ↔ ¬ SpriteCovers s x y n px py) :=
    fun px py => by rw [hfb, State.cell_drawn hn]
  constructor
  · refine Screen.ext_of_cell fun px py => Bool.eq_iff_iff.mpr ?_
    rw [State.cell_drawn hn, hon, hcovers]
    tauto
  · rw [State.getV_drawn_flag_eq_one_iff hn]
    refine exists_congr fun px => exists_congr fun py => ?_
    rw [hcovers, ← hfb, hon, ← Bool.not_eq_true]
    tauto

end Sys2Proof.Machine
end

section
/-! PROOFS. Key skips and the sound timer, spec 44_keys_timers.md: R180, R181, R185. -/

namespace Sys2Proof.Machine

/-- Settles O50: below 16 the skips test that key; from 16 on they raise. -/
theorem keySkipsTestTheKeyLevel : Obligations.KeySkipsTestTheKeyLevel := by
  refine fun x s => ⟨fun k hk => ⟨?skp, ?sknp⟩, fun hge => ⟨?skpRaises, ?sknpRaises⟩⟩
  case skp => exact exec_assigns_pc_alone (exec_skp_of_key hk)
  case sknp => exact exec_assigns_pc_alone (exec_sknp_of_key hk)
  case skpRaises => exact exec_raises (if_pos hge)
  case sknpRaises => exact exec_raises (if_pos hge)

/-- FX18 (R185). -/
theorem exec_ldStVx (x : Reg) (s : State) : exec (.ldStVx x) s = .next { s with st := s.getV x } := rfl

theorem State.soundOn_iff {s : State} : s.soundOn = true ↔ s.st ≠ 0 := bne_iff_ne

/-- Settles O53: FX18 assigns `ST` and nothing else, and both outputs are functions of `ST`. -/
theorem soundTimerIsWrittenAndHeard : Obligations.SoundTimerIsWrittenAndHeard := by
  intro x s
  refine ⟨_, exec_ldStVx x s, rfl, unchangedExcept_st s _, State.soundOn_iff, _, _, rfl, ?_⟩
  exact State.soundStop_iff.trans BitVec.toNat_inj.symm

end Sys2Proof.Machine
end

section
/-! PROOFS. The machine as a whole, spec 40_control_flow.md R109 and 10_state.md R22, R36: where control goes, the
invariant, stale stack slots, and the end of a run, 70_reset_and_hazards.md R246. -/

namespace Sys2Proof.Machine

/-! ### Targets of control -/

/-- Settles O18: an instruction that does not transfer control leaves `PC` alone, and each of the others assigns one of
its targets. -/
theorem controlGoesOnlyToTheListedTargets : Obligations.ControlGoesOnlyToTheListedTargets := by
  intro i s t hown h
  obtain ⟨hframe, -⟩ := frame_of_exec hown h
  cases i with
  | jp nnn =>
    cases h
    rfl
  | call nnn =>
    obtain ⟨stk, p, hcall, -, -⟩ := exec_call_of_lt nnn (sp_lt_of_ownFault hown)
    cases hcall.symm.trans h
    rfl
  | jpV0 nnn =>
    cases h
    exact s.toNat_offsetTarget nnn
  | ret =>
    obtain ⟨a, p, hret, hslot, -⟩ := exec_ret_of_pos (sp_pos_of_ownFault hown)
    cases hret.symm.trans h
    exact hslot
  | seImm x nn =>
    cases (exec_seImm x nn s).symm.trans h
    exact (ite_eq_or_eq _ _ _).symm
  | sneImm x nn =>
    cases (exec_sneImm x nn s).symm.trans h
    exact ite_eq_or_eq _ _ _
  | seReg x y =>
    cases (exec_seReg x y s).symm.trans h
    exact (ite_eq_or_eq _ _ _).symm
  | sneReg x y =>
    cases (exec_sneReg x y s).symm.trans h
    exact ite_eq_or_eq _ _ _
  | skp x =>
    obtain ⟨k, hk⟩ := exists_key_of_ownFault hown
    cases (exec_skp_of_key hk).symm.trans h
    exact (ite_eq_or_eq _ _ _).symm
  | sknp x =>
    obtain ⟨k, hk⟩ := exists_key_of_ownFault hown
    cases (exec_sknp_of_key hk).symm.trans h
    exact ite_eq_or_eq _ _ _
  | ldVxK x =>
    cases hkey : s.lowestKey with
    | some k =>
      cases (exec_ldVxK_of_some x hkey).symm.trans h
      exact .inl rfl
    | none =>
      cases (exec_ldVxK_of_none x hkey).symm.trans h
      exact .inr rfl
  | _ => exact hframe .pc id

/-! ### The invariant -/

/-- Settles O14: reset memory has no cells, `PC` is 0x200, every slot is 0 and nothing is latched. -/
theorem resetMeetsTheMachineInvariant : Obligations.ResetMeetsTheMachineInvariant where
  memWf := Memory.wf_nil
  pcBound := by decide
  slotBound := by simp [State.reset]
  latch := by simp [State.reset]

theorem toNat_add_two {a : Word} (h : a.toNat + 2 < 65536) : (a + 2).toNat = a.toNat + 2 := by bv_omega

theorem toNat_sub_two {a : Word} (h : 2 ≤ a.toNat) : (a - 2).toNat = a.toNat - 2 := by bv_omega

/-- Completing leaves `PC` at most at the highest sum of BNNN, when the instruction and every return address lie in
memory (R22). -/
theorem pc_le_of_exec_completes {i : Instr} {s t : State} (hown : OwnFault i s = none) (h : exec i s = .next t)
    (hlo : 2 ≤ s.pc.toNat) (hhi : s.pc.toNat ≤ 4096) (hslots : ∀ k (h : k < Config.stackDepth), s.stk[k].toNat ≤ 4096) :
    t.pc.toNat ≤ 0x10FE := by
  have htarget := controlGoesOnlyToTheListedTargets i s t hown h
  cases i with
  | jp nnn | call nnn =>
    have haddr : nnn.toNat < 4096 := nnn.isLt
    rw [htarget, BitVec.toNat_setWidth_of_le (by decide)]
    omega
  | jpV0 nnn =>
    have hbyte : (s.getV 0).toNat < 256 := (s.getV 0).isLt
    have haddr : nnn.toNat < 4096 := nnn.isLt
    rw [htarget]
    omega
  | ret =>
    obtain ⟨hk, hslot⟩ := Vector.getElem?_eq_some_iff.mp htarget
    rw [← hslot]
    exact (hslots _ hk).trans (by decide)
  | seImm | sneImm | seReg | sneReg | skp | sknp =>
    obtain hpc | hpc := htarget
    · rw [hpc]
      omega
    · rw [hpc, toNat_add_two (by omega)]
      omega
  | ldVxK x =>
    obtain hpc | hpc := htarget
    · rw [hpc]
      omega
    · rw [hpc, toNat_sub_two hlo]
      omega
  | _ =>
    rw [show t.pc = s.pc from htarget]
    omega

/-- Completing fills a slot with the `PC` after the fetch, or leaves the slots alone (R103). -/
theorem slots_le_of_exec_completes {i : Instr} {s t : State} (hown : OwnFault i s = none) (h : exec i s = .next t)
    (hhi : s.pc.toNat ≤ 4096) (hslots : ∀ k (h : k < Config.stackDepth), s.stk[k].toNat ≤ 4096)
    (k : Nat) (hk : k < Config.stackDepth) : t.stk[k].toNat ≤ 4096 := by
  obtain ⟨hframe, -⟩ := frame_of_exec hown h
  by_cases hcall : ∃ nnn, i = .call nnn
  · obtain ⟨nnn, rfl⟩ := hcall
    obtain ⟨stk, p, hcall, hstk, -⟩ := exec_call_of_lt nnn (sp_lt_of_ownFault hown)
    cases hcall.symm.trans h
    have hslot := hstk k
    rw [Vector.getElem?_eq_getElem hk] at hslot
    split at hslot
    · rw [Option.some.inj hslot]
      exact hhi
    · rw [Vector.getElem?_eq_getElem hk] at hslot
      rw [Option.some.inj hslot]
      exact hslots k hk
  · have hsame : t.stk[k] = s.stk[k] := hframe (.stk ⟨k, hk⟩) fun hw => hcall hw.1
    rw [hsame]
    exact hslots k hk

/-- An instruction fetched from memory that completes keeps the invariant. -/
theorem State.Inv.exec_completes {i : Instr} {s t : State} (hs : s.Inv) (hf : s.fault = none)
    (hpc : s.pc.toNat + 1 < 4096) (hown : OwnFault i s.afterFetch = none) (h : exec i s.afterFetch = .next t) :
    t.Inv := by
  obtain ⟨hmem, -, hslots, -⟩ := hs
  have hafter : s.afterFetch.pc.toNat = s.pc.toNat + 2 := by
    rw [State.afterFetch_pc, toNat_add_two (by omega)]
  obtain ⟨-, hwf⟩ := frame_of_exec hown h
  refine ⟨hwf hmem, ?_, ?_, fun r hr => ?_⟩
  · exact pc_le_of_exec_completes hown h (by omega) (by omega) hslots
  · exact slots_le_of_exec_completes hown h (by omega) hslots
  · obtain ⟨hlatch, -⟩ := latch_of_exec_completes hown h
    have hnone : t.fault = none := hlatch.trans hf
    simp [hnone] at hr

/-- Taking a fault at `PC` keeps the invariant (R203). -/
theorem State.Inv.takeFault {s : State} (hs : s.Inv) (e : Fault) : (s.takeFault e s.pc).Inv := by
  refine ⟨hs.memWf, hs.pcBound, hs.slotBound, ?_⟩
  rintro _ ⟨⟩
  exact ⟨rfl, rfl⟩

/-- Settles O15: a tick changes nothing, takes a fault at `PC`, or runs an instruction that completes. -/
theorem stepKeepsTheMachineInvariant : Obligations.StepKeepsTheMachineInvariant := by
  intro s t hs h
  obtain ⟨-, hstep⟩ | ⟨-, e, hstep⟩ | ⟨hf, w, i, u, hw, -, hown, hexec, hstep⟩ := step_cases s
  · cases hstep.symm.trans h
    exact hs
  · cases hstep.symm.trans h
    exact hs.takeFault e
  · cases hstep.symm.trans h
    obtain ⟨hpc, -⟩ := State.fetch_eq_some.mp hw
    exact hs.exec_completes hf hpc hown hexec

/-! ### Stale stack slots -/

/-- The fault of an instruction does not depend on the stack slots (R200). -/
theorem ownFault_withStk (i : Instr) (s : State) (stk : Vector Word Config.stackDepth) :
    OwnFault i { s with stk := stk } = OwnFault i s := by
  cases i <;> rfl

/-- An instruction other than 00EE and 2NNN completes alike whatever the stack slots hold (R38). -/
theorem exec_withStk {i : Instr} {s t : State} (hret : i ≠ .ret) (hcall : ∀ nnn, i ≠ .call nnn)
    (hown : OwnFault i s = none) (h : exec i s = .next t) (stk : Vector Word Config.stackDepth) :
    exec i { s with stk := stk } = .next { t with stk := stk } := by
  cases i with
  | ret => exact absurd rfl hret
  | call nnn => exact absurd rfl (hcall nnn)
  | ldB x =>
    have hfit := digits_in_memory_of_ownFault hown
    cases (exec_ldB_of_lt x hfit).symm.trans h
    exact exec_ldB_of_lt x hfit
  | ldMemVx x =>
    have hfit := regs_in_memory_of_ownFault hown
    cases (exec_ldMemVx_of_lt hfit).symm.trans h
    exact exec_ldMemVx_of_lt hfit
  | ldVxMem x =>
    have hfit := regs_in_memory_of_ownFault hown
    cases (exec_ldVxMem_of_lt hfit).symm.trans h
    exact exec_ldVxMem_of_lt hfit
  | drw x y n =>
    have hfit := rows_in_memory_of_ownFault hown
    cases (exec_drw_of_lt x y hfit).symm.trans h
    exact exec_drw_of_lt x y hfit
  | skp x =>
    obtain ⟨k, hk⟩ := exists_key_of_ownFault hown
    cases (exec_skp_of_key hk).symm.trans h
    exact exec_skp_of_key hk
  | sknp x =>
    obtain ⟨k, hk⟩ := exists_key_of_ownFault hown
    cases (exec_sknp_of_key hk).symm.trans h
    exact exec_sknp_of_key hk
  | seImm x nn =>
    cases (exec_seImm x nn s).symm.trans h
    exact exec_seImm x nn _
  | sneImm x nn =>
    cases (exec_sneImm x nn s).symm.trans h
    exact exec_sneImm x nn _
  | seReg x y =>
    cases (exec_seReg x y s).symm.trans h
    exact exec_seReg x y _
  | sneReg x y =>
    cases (exec_sneReg x y s).symm.trans h
    exact exec_sneReg x y _
  | ldVxK x =>
    cases hkey : s.lowestKey with
    | some k =>
      cases (exec_ldVxK_of_some x hkey).symm.trans h
      exact exec_ldVxK_of_some x hkey
    | none =>
      cases (exec_ldVxK_of_none x hkey).symm.trans h
      exact exec_ldVxK_of_none x hkey
  | _ =>
    cases h
    rfl

/-- A return pops a slot below `SP`, so it does not read a stale one (R36, R101). -/
theorem ret_withStk {s t : State} {stk : Vector Word Config.stackDepth}
    (hslots : ∀ k (h : k < Config.stackDepth), k < s.sp.val → stk[k] = s.stk[k]) (hown : OwnFault .ret s = none)
    (h : exec .ret s = .next t) : ∃ t', exec .ret { s with stk := stk } = .next t' ∧ SameButStaleSlots t t' := by
  have hpos := sp_pos_of_ownFault hown
  obtain ⟨a, p, hret, hslot, hp⟩ := exec_ret_of_pos hpos
  obtain ⟨a', p', hret', hslot', hp'⟩ := exec_ret_of_pos (s := { s with stk := stk }) hpos
  cases hret.symm.trans h
  obtain ⟨hk, rfl⟩ := Vector.getElem?_eq_some_iff.mp hslot
  obtain ⟨_, rfl⟩ := Vector.getElem?_eq_some_iff.mp hslot'
  obtain rfl : p = p' := Fin.ext (hp.trans hp'.symm)
  refine ⟨_, hret', ?_, fun k hk' (hlt : k < p.val) => hslots k hk' (by omega)⟩
  have hpopped : stk[s.sp.val - 1] = s.stk[s.sp.val - 1] := hslots _ hk (by omega)
  simp only [hpopped]

/-- A call fills the slot at `SP`, stale or not (R36, R103). -/
theorem call_withStk {nnn : BitVec 12} {s t : State} {stk : Vector Word Config.stackDepth}
    (hslots : ∀ k (h : k < Config.stackDepth), k < s.sp.val → stk[k] = s.stk[k])
    (hown : OwnFault (.call nnn) s = none) (h : exec (.call nnn) s = .next t) :
    ∃ t', exec (.call nnn) { s with stk := stk } = .next t' ∧ SameButStaleSlots t t' := by
  have hlt := sp_lt_of_ownFault hown
  obtain ⟨pushed, p, hcall, hpushed, hp⟩ := exec_call_of_lt nnn hlt
  obtain ⟨pushed', p', hcall', hpushed', hp'⟩ := exec_call_of_lt nnn (s := { s with stk := stk }) hlt
  cases hcall.symm.trans h
  obtain rfl : p = p' := Fin.ext (hp.trans hp'.symm)
  refine ⟨_, hcall', rfl, fun k hk hkp => ?_⟩
  have hbelow : k < s.sp.val + 1 := hp ▸ hkp
  have hslot : pushed'[k]? = pushed[k]? := by
    rw [hpushed, hpushed']
    by_cases htop : k = s.sp.val
    · rw [if_pos htop, if_pos htop]
    · rw [if_neg htop, if_neg htop, Vector.getElem?_eq_getElem hk, Vector.getElem?_eq_getElem hk,
        hslots k hk (by omega)]
  simpa [hk] using hslot

/-- Whatever the stale slots hold, an instruction answers the same but for them (R36). -/
theorem exec_staleSlots {i : Instr} {s t : State} {stk : Vector Word Config.stackDepth}
    (hslots : ∀ k (h : k < Config.stackDepth), k < s.sp.val → stk[k] = s.stk[k]) (h : exec i s = .next t) :
    ∃ t', exec i { s with stk := stk } = .next t' ∧ SameButStaleSlots t t' := by
  cases hown : OwnFault i s with
  | some e =>
    cases (exec_of_ownFault hown).symm.trans h
    exact ⟨_, exec_of_ownFault ((ownFault_withStk i s stk).trans hown), rfl, hslots⟩
  | none =>
    by_cases hret : i = .ret
    · subst hret
      exact ret_withStk hslots hown h
    by_cases hcall : ∃ nnn, i = .call nnn
    · obtain ⟨nnn, rfl⟩ := hcall
      exact call_withStk hslots hown h
    obtain ⟨hframe, -⟩ := frame_of_exec hown h
    have hsp : t.sp = s.sp := hframe .sp fun hw => hw.elim hcall hret
    have hstk : ∀ k (hk : k < Config.stackDepth), t.stk[k] = s.stk[k] :=
      fun k hk => hframe (.stk ⟨k, hk⟩) fun hw => hcall hw.1
    refine ⟨_, exec_withStk hret (fun nnn heq => hcall ⟨nnn, heq⟩) hown h stk, rfl, fun k hk hlt => ?_⟩
    rw [hsp] at hlt
    exact (hslots k hk hlt).trans (hstk k hk).symm

/-- Settles O21: the latch, the fetch and the decode do not read the stack, and an instruction reads no stale slot. -/
theorem staleStackSlotsAreNeverRead : Obligations.StaleStackSlotsAreNeverRead := by
  rintro s s' t ⟨hs', hslots⟩ h
  rw [hs']
  obtain ⟨r, hf, hstep⟩ | ⟨hf, hw, hstep⟩ | ⟨w, hf, hw, hd, hstep⟩ | ⟨w, i, hf, hw, hd, hstep⟩ := tick_cases s
  · cases hstep.symm.trans h
    exact ⟨_, step_of_faulted hf, rfl, hslots⟩
  · cases hstep.symm.trans h
    exact ⟨_, step_of_fetch_none hf hw, rfl, hslots⟩
  · cases hstep.symm.trans h
    exact ⟨_, step_of_illegal hf hw hd, rfl, hslots⟩
  · obtain ⟨t', hexec, hsame⟩ := exec_staleSlots (s := s.afterFetch) hslots (hstep.symm.trans h)
    exact ⟨t', (step_of_decode (s := { s with stk := s'.stk }) hf hw hd).trans hexec, hsame⟩

/-! ### The good end of a run -/

/-- A tick of a started core at a jump to itself changes nothing (R246). -/
theorem step_of_goodEnd {s : State} (h : s.goodEnd) (hstarted : s.started = true) : step s = .next s := by
  obtain ⟨hf, nnn, hw, haddr⟩ := h
  have hexec : exec (.jp nnn) s.afterFetch = .next { s with pc := addr16 nnn, started := true } := rfl
  rw [step_of_decode hf hw (decode_encode rfl), hexec, haddr, ← hstarted]

/-- A state that a step leaves alone is left alone by any number of steps. -/
theorem run_of_step_self {s : State} (h : step s = .next s) : ∀ n, core.run n s = .next s := by
  intro n
  induction n with
  | zero => rfl
  | succ n ih =>
    have hcore : core.step s = .next s := h
    simp only [Host.Core.run, hcore, ih]

/-- Settles O22: the tick at a good end changes nothing. -/
theorem jumpToItselfStaysForEver : Obligations.JumpToItselfStaysForEver :=
  fun _ hend hstarted => run_of_step_self (step_of_goodEnd hend hstarted)

end Sys2Proof.Machine
end

section
/-! PROOFS. The host's operations, spec 20_memory.md section 3, 60_exceptions.md sections 1 and 4, and
70_reset_and_hazards.md section 1: reset, load, keypress, the runs that load too late, and what the invariant and the
latch are to them. -/

namespace Sys2Proof.Machine

/-! ### reset -/

/-- Settles O59: reset assigns the reset state, whose memory is the font and 0 above it, and keeps the counter. -/
theorem resetLeavesTheBaseline : Obligations.ResetLeavesTheBaseline := by
  intro s
  refine ⟨s.hostReset, rfl, ?v, rfl, rfl, ?stk, rfl, rfl, rfl, fun a => read_reset_of_lt, fun a => read_reset_of_ge,
    Screen.cell_blank, ?key, rfl, rfl, rfl, rfl⟩
  case v =>
    intro x
    simp [State.getV, State.reset]
  case stk =>
    intro k
    simp [State.reset]
  case key =>
    intro k
    simp [State.keyDown, State.reset]

/-! ### load -/

/-- load of bytes that fit, before the start (R55). -/
theorem State.hostLoad_of_fits {s : State} {b : List Byte} (hstarted : s.started = false) (hfit : b.length ≤ 3584) :
    s.loadResponse b = .ok ∧ s.hostLoad b = { s with mem := s.mem.writeBytes 0x200 b } := by
  have hlen : ¬ Config.loadAddr + b.length > Config.memSize := by
    show ¬ 0x200 + b.length > 4096
    omega
  have hok : s.loadResponse b = .ok := by rw [State.loadResponse, hstarted, if_neg (by decide), if_neg hlen]
  exact ⟨hok, if_pos hok⟩

/-- load of too many bytes, before the start (R56). -/
theorem State.loadResponse_of_long {s : State} {b : List Byte} (hstarted : s.started = false)
    (hlong : 3584 < b.length) : s.loadResponse b = .errCall (.loadOutOfBounds b.length) := by
  have hlen : Config.loadAddr + b.length > Config.memSize := by
    show 0x200 + b.length > 4096
    omega
  rw [State.loadResponse, hstarted, if_neg (by decide), if_pos hlen]

/-- load after the start (R57). -/
theorem State.loadResponse_of_started {s : State} (b : List Byte) (hstarted : s.started = true) :
    s.loadResponse b = .unsupported := if_pos hstarted

/-- load answers OK only to bytes that fit, before the start (R55 to R57). -/
theorem State.fits_of_loadResponse {s : State} {b : List Byte} (h : s.loadResponse b = .ok) :
    s.started = false ∧ b.length ≤ 3584 := by
  have hstarted : s.started = false := by
    by_contra hne
    rw [State.loadResponse_of_started b (by simpa using hne)] at h
    cases h
  refine ⟨hstarted, ?_⟩
  by_contra hlong
  rw [State.loadResponse_of_long hstarted (by omega)] at h
  cases h

/-- A load that does not answer OK changes nothing (R56, R57). -/
theorem perform_load_of_ne_ok {s : State} {b : List Byte} {r : Response} (h : s.loadResponse b = r) (hr : r ≠ .ok) :
    perform (.load b) s = .next (s, .plain r) := by
  subst h
  have hsame : s.hostLoad b = s := if_neg hr
  rw [perform, hsame]

/-- Settles O57: bytes that fit are written from 0x200 on; otherwise load changes nothing. -/
theorem loadCopiesTheBytesOrChangesNothing : Obligations.LoadCopiesTheBytesOrChangesNothing := by
  refine fun b s => ⟨fun hstarted hfit hm => ?fits, fun hstarted hlong => ?long, fun hstarted => ?started⟩
  case fits =>
    obtain ⟨hok, hload⟩ := State.hostLoad_of_fits hstarted hfit
    refine ⟨_, ?_, fun k hk => ?_, unchangedExcept_writeBytes s 0x200 b⟩
    · rw [perform, hok, hload, Reply.plain]
    · rw [List.getElem?_eq_getElem hk, Memory.read_writeBytes b hm (by omega) k hk]
  case long => exact perform_load_of_ne_ok (State.loadResponse_of_long hstarted hlong) (by simp)
  case started => exact perform_load_of_ne_ok (State.loadResponse_of_started b hstarted) (by simp)

/-! ### keypress -/

/-- keypress of a key (R216). -/
theorem State.hostKeypress_of_lt (s : State) {k : Nat} (p : Bool) (h : k < 16) :
    s.hostKeypress k p = { s with key := s.key.set k p h } := dif_pos h

/-- keypress of an index that names no key (R217). -/
theorem State.hostKeypress_of_ge (s : State) {k : Nat} (p : Bool) (h : 16 ≤ k) : s.hostKeypress k p = s :=
  dif_neg (Nat.not_lt.mpr h)

/-- keypress changes no more than the keys (R216, R217). -/
theorem State.exists_hostKeypress_eq (s : State) (k : Nat) (p : Bool) :
    ∃ key, s.hostKeypress k p = { s with key := key } := by
  obtain hlt | hge := Nat.lt_or_ge k 16
  · exact ⟨_, s.hostKeypress_of_lt p hlt⟩
  · exact ⟨s.key, s.hostKeypress_of_ge p hge⟩

theorem keypressResponse_ne_unsupported (k : Nat) : keypressResponse k ≠ .unsupported := by
  unfold keypressResponse
  split <;> simp

/-- Setting one key changes that key alone (R216). -/
theorem unchangedExcept_key (s : State) (k : Key) (p : Bool) :
    UnchangedExcept (fun c => c = .key k) s { s with key := s.key.set k.val p k.isLt } := by
  intro c hc
  cases c with
  | key j =>
    have hne : k.val ≠ j.val := fun h => hc (congrArg Component.key (Fin.ext h.symm))
    exact Vector.getElem_set_ne k.isLt j.isLt hne
  | _ => rfl

/-- Settles O55: a key's index sets that key; any other answers the error and changes nothing. -/
theorem keypressSetsOneKeyOrAnswersAnError : Obligations.KeypressSetsOneKeyOrAnswersAnError := by
  refine fun k p s => ⟨fun hlt => ⟨_, ?_, Vector.getElem_set_self _, unchangedExcept_key s ⟨k, hlt⟩ p⟩, fun hge => ?_⟩
  · have hok : keypressResponse k = .ok := if_pos hlt
    rw [perform, State.hostKeypress_of_lt s p hlt, hok, Reply.plain]
  · have herr : keypressResponse k = .errCall (.keypressIndexOutOfRange k) := if_neg (Nat.not_lt.mpr hge)
    rw [perform, State.hostKeypress_of_ge s p hge, herr, Reply.plain]

/-! ### The latch and the devices -/

/-- Settles O60: neither the three operations nor their answers read or write the latch. -/
theorem faultLatchDoesNotTouchTheDevices : Obligations.FaultLatchDoesNotTouchTheDevices := by
  rintro op s t r f (rfl | ⟨k, p, rfl⟩ | rfl) h
  · cases h
    exact ⟨rfl, rfl⟩
  · cases h
    obtain hlt | hge := Nat.lt_or_ge k 16
    · rw [perform, State.hostKeypress_of_lt _ p hlt, State.hostKeypress_of_lt _ p hlt]
      exact ⟨rfl, rfl⟩
    · rw [perform, State.hostKeypress_of_ge _ p hge, State.hostKeypress_of_ge _ p hge]
      exact ⟨rfl, rfl⟩
  · cases h
    exact ⟨rfl, rfl⟩

/-! ### The invariant -/

/-- The state that the host's tick leaves is the one the step leaves. -/
theorem step_of_perform_tick {s t : State} {r : Reply} (h : perform .tick s = .next (t, r)) : step s = .next t := by
  obtain ⟨u, hstep⟩ := everyTickAnswersANextState s
  cases (perform_tick_of_step hstep).symm.trans h
  exact hstep

/-- A load keeps the invariant: the bytes it stores lie in memory (R56). -/
theorem State.Inv.hostLoad {s : State} (hs : s.Inv) (b : List Byte) : (s.hostLoad b).Inv := by
  by_cases hok : s.loadResponse b = .ok
  · obtain ⟨hstarted, hfit⟩ := State.fits_of_loadResponse hok
    obtain ⟨-, hload⟩ := State.hostLoad_of_fits hstarted hfit
    obtain ⟨hmem, hpc, hslots, hlatch⟩ := hs
    rw [hload]
    exact ⟨Memory.wf_writeBytes b hmem (by omega), hpc, hslots, hlatch⟩
  · have hsame : s.hostLoad b = s := if_neg hok
    rwa [hsame]

/-- Settles O16: reset ends in the reset state but for the counter, a tick is a step, a load stores inside memory, and
the other operations write nothing that the invariant speaks of. -/
theorem hostOperationsKeepTheMachineInvariant : Obligations.HostOperationsKeepTheMachineInvariant := by
  intro op s t r hs h
  cases op with
  | reset =>
    cases h
    obtain ⟨hmem, hpc, hslots, hlatch⟩ := resetMeetsTheMachineInvariant
    exact ⟨hmem, hpc, hslots, hlatch⟩
  | load b =>
    cases h
    exact hs.hostLoad b
  | tick => exact stepKeepsTheMachineInvariant s t hs (step_of_perform_tick h)
  | tickTimers =>
    cases h
    obtain ⟨hmem, hpc, hslots, hlatch⟩ := hs
    exact ⟨hmem, hpc, hslots, hlatch⟩
  | keypress k p =>
    cases h
    obtain ⟨hmem, hpc, hslots, hlatch⟩ := hs
    obtain ⟨key, hkey⟩ := s.exists_hostKeypress_eq k p
    rw [hkey]
    exact ⟨hmem, hpc, hslots, hlatch⟩
  | getDisplay =>
    cases h
    exact hs

/-! ### Runs that load after a tick -/

/-- A tick of a healthy or started core leaves it started (R79). -/
theorem started_of_step {s t : State} (h : step s = .next t) (hs : s.fault = none ∨ s.started = true) :
    t.started = true := by
  obtain ⟨hne, hstep⟩ | ⟨-, e, hstep⟩ | ⟨-, w, i, u, -, -, hown, hexec, hstep⟩ := step_cases s
  · cases hstep.symm.trans h
    exact hs.resolve_left hne
  · cases hstep.symm.trans h
    rfl
  · cases hstep.symm.trans h
    exact (latch_of_exec_completes hown hexec).2

/-- A tick never answers UNSUPPORTED (R79). -/
theorem State.tickResponse_ne_unsupported (t : State) : t.tickResponse ≠ .unsupported := by
  unfold State.tickResponse
  split <;> simp

/-- In a started core an operation other than reset and load answers, and the core stays started. -/
theorem perform_of_started {op : HostOp} {s : State} (hs : s.started = true)
    (hop : op ≠ .reset ∧ ∀ b, op ≠ .load b) :
    ∃ t r, perform op s = .next (t, r) ∧ r.resp ≠ .unsupported ∧ t.started = true := by
  obtain ⟨hreset, hload⟩ := hop
  cases op with
  | reset => exact absurd rfl hreset
  | load b => exact absurd rfl (hload b)
  | tick =>
    obtain ⟨t, hstep⟩ := everyTickAnswersANextState s
    exact ⟨t, _, perform_tick_of_step hstep, t.tickResponse_ne_unsupported, started_of_step hstep (.inr hs)⟩
  | tickTimers => exact ⟨_, _, rfl, by simp, hs⟩
  | keypress k p =>
    obtain ⟨key, hkey⟩ := s.exists_hostKeypress_eq k p
    exact ⟨_, _, rfl, keypressResponse_ne_unsupported k, by rw [hkey]; exact hs⟩
  | getDisplay => exact ⟨_, _, rfl, by simp, hs⟩

/-- A run goes on after an operation that does not answer UNSUPPORTED (R57). -/
theorem runOps_cons {op : HostOp} {ops : List HostOp} {s t : State} {r : Reply} (h : perform op s = .next (t, r))
    (hr : r.resp ≠ .unsupported) : runOps (op :: ops) s = runOps ops t := by
  simp only [runOps, h, if_neg hr]

/-- A run in a started core that reaches a load with no reset between is refused (R57). -/
theorem runOps_load_of_started {ops : List HostOp} (ops' : List HostOp) (b : List Byte)
    (hops : ∀ op ∈ ops, op ≠ .reset ∧ ∀ b', op ≠ .load b') : ∀ {s : State}, s.started = true →
    runOps (ops ++ .load b :: ops') s = .refused .loadAfterStart := by
  induction ops with
  | nil =>
    intro s hs
    have hload := perform_load_of_ne_ok (State.loadResponse_of_started b hs) (by simp)
    simp [runOps, hload, Reply.plain]
  | cons op ops ih =>
    intro s hs
    obtain ⟨hop, hrest⟩ := List.forall_mem_cons.mp hops
    obtain ⟨t, r, hperform, hresp, ht⟩ := perform_of_started hs hop
    rw [List.cons_append, runOps_cons hperform hresp]
    exact ih hrest ht

/-- Settles O58: the first tick starts the core, the operations between keep it started, and there a load answers
UNSUPPORTED. -/
theorem runThatLoadsAfterATickIsRefused : Obligations.RunThatLoadsAfterATickIsRefused := by
  intro ops ops' b s hops hf
  obtain ⟨t, hstep⟩ := everyTickAnswersANextState s
  rw [List.cons_append, runOps_cons (perform_tick_of_step hstep) t.tickResponse_ne_unsupported]
  exact runOps_load_of_started ops' b hops (started_of_step hstep (.inl hf))

end Sys2Proof.Machine
end
